-- ==== Sys2Proof/Config.lean ====
section
/-! DEFINITION. What an implementation of the block fixes: the parameters of 00_scope.md R7 (WMAX, NEG_MODE, with PB_MAX and WF
derived from WMAX, and the open latencies), the widths of 30_encoding.md R61 and 10_state.md R30 that follow from them, this
hardware's values, and the open host parameter of 44_host_interface.md R147. -/

namespace Sys2Proof

/-- `NEG_MODE`: the width at which the multiplicand is negated to build S (R7, R85). -/
inductive NegMode where
  | window   -- productBits
  | operand  -- the multiplicand's own width m
  deriving DecidableEq, Repr

/-- The parameters a block is built with (R7). `wmax` is `WMAX`: the largest legal `totalBits` and the storage width of A, S,
P. Every definition of the model takes a `Params`. -/
structure Params where
  wmax : Nat
  negMode : NegMode
  deriving DecidableEq, Repr

/-- `bitlength(x)`: the number of bits in the binary form of `x` without leading zeros (R7). -/
def Config.bitlength (x : Nat) : Nat := if x = 0 then 0 else Nat.log2 x + 1

/-- `PB_MAX = (WMAX - 1) div 2`: largest legal `productBits`, width of the operand value fields (R7). -/
abbrev Params.pbMax (c : Params) : Nat := (c.wmax - 1) / 2

/-- `WF = bitlength(WMAX)`: width of the operand-width fields and of pb, W, hb and rem (R7). -/
abbrev Params.wf (c : Params) : Nat := Config.bitlength c.wmax

/-- `CW = 2 + 2·WF + 2·PB_MAX`: width of the command word (R61). -/
abbrev Params.cw (c : Params) : Nat := 2 + 2 * c.wf + 2 * c.pbMax

/-- `5 + 2·WF`: width of the STATUS word (R30). -/
abbrev Params.statW (c : Params) : Nat := 5 + 2 * c.wf

/-- A legal `WMAX`: "any odd integer ≥ 5 is legal" (R7). -/
abbrev Params.legal (c : Params) : Prop := c.wmax % 2 = 1 ∧ 5 ≤ c.wmax

/-- This hardware's parameters: WMAX = 63, the spec's default (R7, log 1), and NEG_MODE = WINDOW (R7, R85, 90_conflicts.md C1,
log 2). -/
abbrev Config.hw : Params := { wmax := 63, negMode := .window }

/-- `LAT_LOAD`: cycles a LOAD takes, OPEN (R7, R186). No rule and no definition depends on it (log 14). -/
opaque Config.latLoad : Nat

/-- `LAT_STEP`: cycles a STEP takes, OPEN (R7, R186). No rule and no definition depends on it (log 14). -/
opaque Config.latStep : Nat

/-- `LAT_QUERY`: cycles a QUERY takes, OPEN (R7, R186). No rule and no definition depends on it (log 14). -/
opaque Config.latQuery : Nat

/-- `TRACE_LINE_FORMAT`: how the host lays out a record's label text and register string on a line, OPEN (R147, D30,
log 15). -/
opaque Config.traceLineFormat : List Char → List Char → List Char

end Sys2Proof
end

