-- ==== Sys2Proof/Word.lean ====
section
/-! DEFINITION. The widths of the values that cross the block's ports or stand in its registers (20_memory.md R53), for a block
with the parameters `c`. -/

namespace Sys2Proof

/-- The storage of A, S, P and the trace value port: `WMAX` bits (R26, R53). -/
abbrev Reg (c : Params) := BitVec c.wmax

/-- The storage of pb, W, hb and rem, and the operand-width fields: `WF` bits (R22, R27, R61). -/
abbrev Count (c : Params) := BitVec c.wf

/-- The operand value fields and the product port: `PB_MAX` bits (R61, R53). -/
abbrev Value (c : Params) := BitVec c.pbMax

/-- One command word: `CW` bits (R61). -/
abbrev CommandWord (c : Params) := BitVec c.cw

/-- The STATUS word: `5 + 2·WF` bits (R30). -/
abbrev StatusWord (c : Params) := BitVec c.statW

end Sys2Proof
end

