-- ==== Sys2Proof/Machine/State.lean ====
section
/-! DEFINITION. The block's state (10_state.md R20), its response record (30_encoding.md R66), the inputs the host can
give it, its one fault, and the state after reset (R35). -/

namespace Sys2Proof.Machine

/-- `PHASE` (R21). Its 2-bit codes are `Phase.code` in Flags.lean. -/
inductive Phase where
  | idle   -- no run is loaded
  | run    -- a run is loaded and rem > 0
  | done   -- the run has finished and the product is available
  | fatal  -- an internal invariant failed; unreachable (R164)
  deriving DecidableEq, Repr

/-- The status codes of R67. Codes 5 to 7 are never produced. -/
inductive Status where
  | ok
  | invalidOperand
  | widthOverflow
  | internalInvariant
  | rejected
  deriving DecidableEq, Repr

/-- The trace labels of R68: `A`, `S`, `P`, `P+A`, `P+S`, `>>1 P`. Codes 6 and 7 are never produced. -/
inductive Label where
  | a
  | s
  | p
  | pPlusA
  | pPlusS
  | shiftP
  deriving DecidableEq, Repr

/-- One trace record: a label and the register value it carries (R66, R68). -/
structure TraceRecord (c : Params) where
  label : Label
  value : Reg c
  deriving DecidableEq, Repr

/-- `qa`, `qs`, `qp` of a QUERY response (R66, R128). -/
structure QueryRegs (c : Params) where
  qa : Reg c
  qs : Reg c
  qp : Reg c
  deriving DecidableEq, Repr

/-- The response to one command (R66). A field that may be invalid is an Option: `product` is valid when `pvalid`, `stat`
when `qvalid`, `regs` when `rvalid`. `Response.toPort` in Ops.lean lays it out field by field with the zeros of R66. -/
structure Response (c : Params) where
  status : Status
  recs : List (TraceRecord c)       -- oldest first
  product : Option (Value c)
  stat : Option (StatusWord c)
  regs : Option (QueryRegs c)
  deriving DecidableEq, Repr

/-- The geometry of a run: `productBits`, `totalBits`, `halfBit`, before they are narrowed to their registers (R82). -/
structure Geometry where
  pb : Nat
  W : Nat
  hb : Nat
  deriving DecidableEq, Repr

/-- What the host can do to the block: put a command word on the command port (R61), or assert the reset input (R180). -/
inductive Input (c : Params) where
  | command (w : CommandWord c)
  | reset
  deriving DecidableEq, Repr

/-- The registers that can hold ⊥ (R22, R27, R34). -/
inductive RunReg where
  | pb
  | W
  | hb
  | A
  | S
  | P
  | rem
  deriving DecidableEq, Repr

/-- A block built with the parameters `c` (R20), and its two ports. A register that holds ⊥ is `none`: ⊥ is the spec's own
value, written by reset (R35) and by a failed LOAD (R92), and is "no value, not zero" (R36, log 3). -/
structure State.At (c : Params) where
  phase : Phase
  err : Status
  pb : Option (Count c)
  W : Option (Count c)
  hb : Option (Count c)
  A : Option (Reg c)
  S : Option (Reg c)
  P : Option (Reg c)
  rem : Option (Count c)
  /-- The response port: what the latest transaction returned; none before the first and after reset. The model's own
  field (log 5). -/
  resp : Option (Response c)
  /-- What the host will do next, soonest first. The model's own field (log 4). -/
  inputs : List (Input c)
  deriving DecidableEq, Repr

/-- The block of this hardware: WMAX = 63, NEG_MODE = WINDOW (R7). -/
abbrev State := State.At Config.hw

/-- Why the machine stops. -/
inductive Fault where
  /-- Raised by `readReg` when a meaning reads a register that holds ⊥. Safe: "A model that would read one must fault
  rather than pick a value" (R36); no state reachable from reset reads one (R34). -/
  | undefinedRegister (r : RunReg)
  deriving DecidableEq, Repr

/-- Why an instruction has no meaning. -/
inductive Refusal where
  /-- Raised by an arm of `exec` whose instruction has no meaning in the model. Safe. No arm raises it. -/
  | notModelled (mnemonic : String)
  deriving DecidableEq, Repr

/-- The outcome of one step of the block. -/
abbrev Out (c : Params) := Host.Outcome (State.At c) Fault Refusal

/-- The state after reset (R35, R180): IDLE, OK, every run register ⊥. The two port fields are the model's own: no
response has been returned, and no input is waiting. -/
def State.resetAt (c : Params) : State.At c :=
  { phase := .idle, err := .ok, pb := none, W := none, hb := none, A := none, S := none, P := none, rem := none,
    resp := none, inputs := [] }

/-- This hardware after reset. -/
def State.reset : State := State.resetAt Config.hw

end Sys2Proof.Machine
end

