-- ==== Sys2Proof/Machine/Operands.lean ====
section
/-! DEFINITION. The operands of a LOAD: the primitives of 00_scope.md R10, the operand check (40_load.md R81), the width
calculator (R82, R83) and the register builder (R84 to R87). Everything is exact arithmetic on natural numbers, "no
wrap-around in any intermediate value" (R80); a result is narrowed to its register only where it is written. -/

namespace Sys2Proof.Machine
open Sys2Proof

variable {c : Params}

/-- `mask(v, w) = v mod 2^w` (R10). -/
def mask (v w : Nat) : Nat := v % 2 ^ w

/-- `mask(v, w)` of an integer that may be negative: "the mathematical residue in `[0, 2^w)`" (R10). -/
def maskInt (v : Int) (w : Nat) : Nat := (v % (2 ^ w : Int)).toNat

/-- `v[i]` (R9). -/
def bitAt (v i : Nat) : Nat := v / 2 ^ i % 2

/-- `v[hi:lo] = (v >> lo) mod 2^(hi-lo+1)` (R9). -/
def slice (v hi lo : Nat) : Nat := v / 2 ^ lo % 2 ^ (hi + 1 - lo)

/-- `signed_w(v)`: the two's-complement value of a `w`-bit pattern (R10). -/
def signedOf (v w : Nat) : Int := if bitAt v (w - 1) = 1 then (v : Int) - 2 ^ w else v

/-- `invalid(v, w) = (w = 0) or (v >= 2^w)` (R81). -/
def invalidOperand (v w : Nat) : Bool := w == 0 || decide (2 ^ w ≤ v)

/-- `productBits = m + n; totalBits = 2·productBits + 1; halfBit = productBits + 1` (R82). -/
def geometryOf (m n : Nat) : Geometry := { pb := m + n, W := 2 * (m + n) + 1, hb := m + n + 1 }

/-- The checks of a LOAD in their order (R80, R166): multiplicand, multiplier, width. -/
def checkOperands (wmax mval m rval n : Nat) : Except Status Geometry :=
  if invalidOperand mval m then .error .invalidOperand
  else if invalidOperand rval n then .error .invalidOperand
  else if (geometryOf m n).W > wmax then .error .widthOverflow
  else .ok (geometryOf m n)

/-- The negation width `negw`: `pb` under WINDOW, `m` under OPERAND (R85). -/
def negWidth : NegMode → Geometry → Nat → Nat
  | .window, g, _ => g.pb
  | .operand, _, m => m

/-- `mask(~m_val + 1, negw)` (R85). -/
def twosComp (mval negw : Nat) : Nat := maskInt (Int.not mval + 1) negw

/-- `A <- mask(m_val << hb, W)` (R84). -/
def buildA (g : Geometry) (mval : Nat) : Nat := mask (mval * 2 ^ g.hb) g.W

/-- `S <- mask(mask(~m_val + 1, negw) << hb, W)` (R85). -/
def buildS (mode : NegMode) (g : Geometry) (mval m : Nat) : Nat :=
  mask (twosComp mval (negWidth mode g m) * 2 ^ g.hb) g.W

/-- `P <- mask(r_val << 1, W)` (R86). -/
def buildP (g : Geometry) (rval : Nat) : Nat := mask (rval * 2) g.W

/-- A value written into a register of A, S, P. -/
def toReg (v : Nat) : Reg c := BitVec.ofNat c.wmax v

/-- A value written into one of the registers pb, W, hb, rem. -/
def toCount (v : Nat) : Count c := BitVec.ofNat c.wf v

/-- A value placed in an operand value field or on the product port. -/
def toValue (v : Nat) : Value c := BitVec.ofNat c.pbMax v

/-- `pair = P[1:0]` (R100). -/
def pairOf (p : Reg c) : BitVec 2 := p.extractLsb' 0 2

/-- `mask(P + X, W)`: the accumulator's W-bit adder, its carry out discarded (R104). -/
def accumulate (p x : Reg c) (w : Nat) : Reg c := toReg (mask (p.toNat + x.toNat) w)

/-- `asr(v, W) = {v[W-1], v[W-1:1]}`, W bits (R110), for a storage of any width. The outer mask is R26's ("every rule that
writes A, S or P masks the value to `W` bits") and matters only at W = 0, which no run has (log 11). The form
`(v >> 1) | (v[W-1] << (W-1))` is the same number whenever no bit at or above W is set (log 12). -/
def asr {k : Nat} (v : BitVec k) (w : Nat) : BitVec k :=
  BitVec.ofNat k (mask (bitAt v.toNat (w - 1) * 2 ^ (w - 1) + slice v.toNat (w - 1) 1) w)

/-- The source's two-step procedure (R111) after its plain right shift `t`: flip bit `W-1` when it differs from `W-2`. -/
def signFix {k : Nat} (t : BitVec k) (w : Nat) : BitVec k :=
  if t.getLsbD (w - 2) != t.getLsbD (w - 1) then t ^^^ BitVec.twoPow k (w - 1) else t

/-- The product `P[pb:1]`, zero-extended to `PB_MAX` bits (R125, R127). -/
def productOf (p : Reg c) (pb : Count c) : Value c := toValue (slice p.toNat pb.toNat 1)

end Sys2Proof.Machine
end

