-- ==== Sys2Proof/Machine/Flags.lean ====
section
/-! DEFINITION. The numeric codes of PHASE (10_state.md R21), of the status codes (30_encoding.md R67) and of the trace
labels (R68), and the STATUS word (10_state.md R30). The block has no other flags: the adder and the shifter set none
(R31). -/

namespace Sys2Proof.Machine
open Sys2Proof

/-- `IDLE` = 0b00, `RUN` = 0b01, `DONE` = 0b10, `FATAL` = 0b11 (R21). -/
def Phase.code : Phase → BitVec 2
  | .idle => 0b00
  | .run => 0b01
  | .done => 0b10
  | .fatal => 0b11

/-- The numbers of the status codes (R67), in the 3 bits of ERR and of a response's `status`. -/
def Status.code : Status → BitVec 3
  | .ok => 0
  | .invalidOperand => 1
  | .widthOverflow => 2
  | .internalInvariant => 3
  | .rejected => 4

/-- The numbers of the trace labels (R68). -/
def Label.code : Label → BitVec 3
  | .a => 0
  | .s => 1
  | .p => 2
  | .pPlusA => 3
  | .pPlusS => 4
  | .shiftP => 5

/-- The label's text (R68). -/
def Label.text : Label → List Char
  | .a => ['A']
  | .s => ['S']
  | .p => ['P']
  | .pPlusA => ['P', '+', 'A']
  | .pPlusS => ['P', '+', 'S']
  | .shiftP => ['>', '>', '1', ' ', 'P']

/-- Whether the phase is one in which a run is loaded: PHASE ∈ {RUN, DONE} (R30, R128). -/
def Phase.hasRun : Phase → Bool
  | .idle => false
  | .run => true
  | .done => true
  | .fatal => false

/-- STATUS: PHASE in [1:0], ERR in [4:2], REM in [4+WF:5], PB in [4+2·WF:5+WF] (R30). -/
def statusWord {c : Params} (phase : Phase) (err : Status) (rem pb : Count c) : StatusWord c :=
  BitVec.ofNat c.statW
    (phase.code.toNat + err.code.toNat * 2 ^ 2 + rem.toNat * 2 ^ 5 + pb.toNat * 2 ^ (5 + c.wf))

end Sys2Proof.Machine
end

