-- ==== Sys2Proof/Machine/Ops.lean ====
section
/-! DEFINITION. The named operations over the block's registers and its response port: reading a register that may hold
⊥ (10_state.md R36), writing, `emit` (00_scope.md R10), the error effects (60_exceptions.md R163 to R165), the reset input
(70_reset_and_hazards.md R180), and the response record as the port carries it (30_encoding.md R66). -/

namespace Sys2Proof.Machine
open Sys2Proof

variable {c : Params}

/-! ### Reading -/

/-- Read a register: its value goes on to `k`; a register that holds ⊥ stops the machine (R36). -/
def readReg {α : Type} (r : RunReg) (v : Option α) (k : α → Out c) : Out c :=
  match v with
  | some x => k x
  | none => .fault (.undefinedRegister r)

/-- The next operation of the same transaction. -/
def andThen (o : Out c) (k : State.At c → Out c) : Out c :=
  match o with
  | .next s => k s
  | .fault r => .fault r
  | .refused r => .refused r

/-! ### Writing -/

/-- `PHASE <- p`. -/
def State.At.setPhase (s : State.At c) (p : Phase) : State.At c := { s with phase := p }

/-- `ERR <- e`. -/
def State.At.setErr (s : State.At c) (e : Status) : State.At c := { s with err := e }

/-- `pb <- pb' ; W <- W' ; hb <- hb'` (R80, R82). -/
def State.At.setGeometry (s : State.At c) (g : Geometry) : State.At c :=
  { s with pb := some (toCount g.pb), W := some (toCount g.W), hb := some (toCount g.hb) }

/-- `A <- v`. -/
def State.At.setA (s : State.At c) (v : Reg c) : State.At c := { s with A := some v }

/-- `S <- v`. -/
def State.At.setS (s : State.At c) (v : Reg c) : State.At c := { s with S := some v }

/-- `P <- v`. -/
def State.At.setP (s : State.At c) (v : Reg c) : State.At c := { s with P := some v }

/-- `rem <- v`. -/
def State.At.setRem (s : State.At c) (v : Count c) : State.At c := { s with rem := some v }

/-- `pb, W, hb, A, S, P, rem <- ⊥` (R92, R164). -/
def State.At.voidRun (s : State.At c) : State.At c :=
  { s with pb := none, W := none, hb := none, A := none, S := none, P := none, rem := none }

/-- Put `r` on the response port. -/
def State.At.setResp (s : State.At c) (r : Response c) : State.At c := { s with resp := some r }

/-- The host's inputs still to come. -/
def State.At.setInputs (s : State.At c) (l : List (Input c)) : State.At c := { s with inputs := l }

/-! ### Responses -/

/-- A response with `status` and every other field invalid (R66). -/
def Response.bare (st : Status) : Response c :=
  { status := st, recs := [], product := none, stat := none, regs := none }

/-- The start of an accepted command's response: `OK`, no record yet. -/
def State.At.openResponse (s : State.At c) : State.At c := s.setResp (Response.bare .ok)

/-- The response as `emit` leaves it: one more record at the end (R66: "listed in the order they were emitted"). -/
def Response.addRecord (r : Response c) (l : Label) (v : Reg c) : Response c :=
  { r with recs := r.recs ++ [{ label := l, value := v }] }

/-- The response under construction. Where the port holds none (a micro-operation run by itself on a block that has
answered no command), a response `OK` is opened (log 9). -/
def State.At.currentResp (s : State.At c) : Response c := s.resp.getD (Response.bare .ok)

/-- `emit(label, value)`: append one trace record to the current command's response (R10, R126). -/
def State.At.emit (s : State.At c) (l : Label) (v : Reg c) : State.At c := s.setResp (s.currentResp.addRecord l v)

/-- The response carries the product: `pvalid = 1` (R127). -/
def State.At.deliverProduct (s : State.At c) (v : Value c) : State.At c := s.setResp { s.currentResp with product := some v }

/-! ### Errors and reset -/

/-- `return {status: REJECTED}` with no state change (R165). -/
def State.At.reject (s : State.At c) : State.At c := s.setResp (Response.bare .rejected)

/-- `fail(code)`: PHASE <- IDLE, ERR <- code, every run register ⊥, no record, no product (R80, R92, R163). -/
def State.At.failLoad (s : State.At c) (code : Status) : State.At c :=
  (((s.setPhase .idle).setErr code).voidRun).setResp (Response.bare code)

/-- What a fitted detector for `InternalInvariantError` does to the block when it fires during a STEP (R164). "A model of
this spec has no transition into FATAL": no meaning and no step calls it (log 13). -/
def State.At.enterFatal (s : State.At c) : State.At c :=
  (((s.setPhase .fatal).setErr .internalInvariant).voidRun).setResp (Response.bare .internalInvariant)

/-- The reset input: every piece of state at its reset value, no response (R180). The host's later inputs stand. -/
def State.At.resetInput (s : State.At c) : State.At c :=
  (State.resetAt c).setInputs s.inputs

/-! ### The response as the port carries it (R66) -/

/-- One record slot of the port. -/
structure PortRecord (c : Params) where
  label : BitVec 3
  value : Reg c
  deriving DecidableEq, Repr

/-- Every field of R66 with its width. R66 gives no bit positions, so the fields stand side by side (log 16). -/
structure PortResponse (c : Params) where
  status : BitVec 3
  nrec : BitVec 2
  rec0 : PortRecord c
  rec1 : PortRecord c
  rec2 : PortRecord c
  pvalid : BitVec 1
  product : Value c
  qvalid : BitVec 1
  stat : StatusWord c
  rvalid : BitVec 1
  qa : Reg c
  qs : Reg c
  qp : Reg c
  deriving DecidableEq, Repr

/-- Slot `i`: the record, or label 0 and value 0 where `i ≥ nrec` (R66). -/
def portRecord (l : List (TraceRecord c)) (i : Nat) : PortRecord c :=
  match l[i]? with
  | some r => { label := r.label.code, value := r.value }
  | none => { label := 0, value := 0 }

/-- A valid bit. -/
def validBit {α : Type} (o : Option α) : BitVec 1 := if o.isSome then 1 else 0

/-- The response laid out on the port: "A field marked 'when valid' holds 0 when its valid bit is 0" (R66). -/
def Response.toPort (r : Response c) : PortResponse c :=
  { status := r.status.code
    nrec := BitVec.ofNat 2 r.recs.length
    rec0 := portRecord r.recs 0
    rec1 := portRecord r.recs 1
    rec2 := portRecord r.recs 2
    pvalid := validBit r.product
    product := r.product.getD 0
    qvalid := validBit r.stat
    stat := r.stat.getD 0
    rvalid := validBit r.regs
    qa := (r.regs.map (·.qa)).getD 0
    qs := (r.regs.map (·.qs)).getD 0
    qp := (r.regs.map (·.qp)).getD 0 }

end Sys2Proof.Machine
end

