-- ==== Sys2Proof/Machine/Load.lean ====
section
/-! DEFINITION. LOAD (40_load.md R80): the width calculator and the register builder. -/

namespace Sys2Proof.Machine
open Sys2Proof

variable {c : Params}

/-- An accepted LOAD with geometry `g`: the registers are built, the counter starts, three records are emitted
(R80, R84 to R89). S is negated at the width that the block's `NEG_MODE` sets (R85). -/
def State.At.startRun (s : State.At c) (g : Geometry) (mval m rval : Nat) : State.At c :=
  let a := toReg (buildA g mval)
  let sv := toReg (buildS c.negMode g mval m)
  let p := toReg (buildP g rval)
  let built := (((s.setA a).setS sv).setP p).setGeometry g
  let started := ((built.setRem (toCount g.pb)).setPhase .run).setErr .ok
  ((started.openResponse.emit .a a).emit .s sv).emit .p p

/-- LOAD (R80) on a block with the parameters `c`: rejected in FATAL (R91), failed on the first check that does not hold
(R166), else a new run, whatever run was there before (R90). -/
def execLoad (m n mval rval : Nat) (s : State.At c) : Out c :=
  if s.phase = .fatal then .next s.reject
  else
    match checkOperands c.wmax mval m rval n with
    | .error code => .next (s.failLoad code)
    | .ok g => .next (s.startRun g mval m rval)

end Sys2Proof.Machine
end

