-- ==== Sys2Proof/Machine/Accumulator.lean ====
section
/-! DEFINITION. The two's-complement partial-product accumulator: the four Booth operations of 41_accumulator.md. They
are micro-operations of STEP, not commands. -/

namespace Sys2Proof.Machine
open Sys2Proof

variable {c : Params}

/-- `P <- mask(P + X, W) ; emit(label, P)` for an addend register X (R102, R103, R104). -/
def addInto (l : Label) (x : RunReg) (v : Option (Reg c)) (s : State.At c) : Out c :=
  readReg .P s.P fun p =>
    readReg x v fun a =>
      readReg .W s.W fun w =>
        .next ((s.setP (accumulate p a w.toNat)).emit l (accumulate p a w.toNat))

/-- Pair `0b00`: no addition, no record (R101). -/
def execBoothNop00 (s : State.At c) : Out c := .next s

/-- Pair `0b01`: add the multiplicand, record `P+A` (R102). -/
def execBoothAddA (s : State.At c) : Out c := addInto .pPlusA .A s.A s

/-- Pair `0b10`: add the negated multiplicand, record `P+S` (R103). -/
def execBoothAddS (s : State.At c) : Out c := addInto .pPlusS .S s.S s

/-- Pair `0b11`: no addition, no record (R101). -/
def execBoothNop11 (s : State.At c) : Out c := .next s

/-- The dispatch: the pair selects exactly one of the four operations (R69, R100). The source's fifth case does not exist
(R105). -/
def boothDispatch (pair : BitVec 2) (s : State.At c) : Out c :=
  if pair = 0b00#2 then execBoothNop00 s
  else if pair = 0b01#2 then execBoothAddA s
  else if pair = 0b10#2 then execBoothAddS s
  else execBoothNop11 s

end Sys2Proof.Machine
end

