-- ==== Sys2Proof/Machine/Shifter.lean ====
section
/-! DEFINITION. The width-corrected arithmetic right shifter (42_shifter.md). It is a micro-operation of STEP, not a
command. -/

namespace Sys2Proof.Machine
open Sys2Proof

variable {c : Params}

/-- `P <- asr(P, W) ; emit(>>1 P, P)` (R110). The bit shifted out is discarded (R113). -/
def execAsr (s : State.At c) : Out c :=
  readReg .P s.P fun p =>
    readReg .W s.W fun w =>
      .next ((s.setP (asr p w.toNat)).emit .shiftP (asr p w.toNat))

end Sys2Proof.Machine
end

