-- ==== Sys2Proof/Machine/Sequencer.lean ====
section
/-! DEFINITION. The recurrence sequencer (43_sequencer.md): STEP, QUERY, and the reserved command code (30_encoding.md
R65). -/

namespace Sys2Proof.Machine
open Sys2Proof

variable {c : Params}

/-- The end of a STEP: `rem <- rem - 1`; at 0 the run is DONE and the response carries the product (R120, R122, R123,
R127). -/
def finishStep (s : State.At c) : Out c :=
  readReg .rem s.rem fun r =>
    if r - 1 = 0 then
      readReg .P s.P fun p =>
        readReg .pb s.pb fun pb =>
          .next (((s.setRem (r - 1)).setPhase .done).deliverProduct (productOf p pb))
    else .next (s.setRem (r - 1))

/-- One Booth iteration of an accepted STEP: the pair is read once, before anything is written (R100); then the
addition, the shift, the count (R120). -/
def stepRun (s : State.At c) : Out c :=
  readReg .P s.P fun p =>
    andThen (boothDispatch (pairOf p) s.openResponse) fun s1 =>
      andThen (execAsr s1) finishStep

/-- STEP (R120): accepted only in RUN (R121). -/
def execStep (s : State.At c) : Out c :=
  if s.phase = .run then stepRun s else .next s.reject

/-- STATUS as QUERY returns it: `rem` and `pb` in RUN and DONE, else 0 (R30). -/
def readStatus (s : State.At c) (k : StatusWord c → Out c) : Out c :=
  if s.phase.hasRun then
    readReg .rem s.rem fun r =>
      readReg .pb s.pb fun pb => k (statusWord s.phase s.err r pb)
  else k (statusWord s.phase s.err 0 0)

/-- `qa`, `qs`, `qp`: A, S, P in RUN and DONE, else not valid (R128). -/
def readQueryRegs (s : State.At c) (k : Option (QueryRegs c) → Out c) : Out c :=
  if s.phase.hasRun then
    readReg .A s.A fun a =>
      readReg .S s.S fun sv =>
        readReg .P s.P fun p => k (some { qa := a, qs := sv, qp := p })
  else k none

/-- The product in DONE, else not valid (R127, R128). -/
def readProduct (s : State.At c) (k : Option (Value c) → Out c) : Out c :=
  if s.phase = .done then
    readReg .P s.P fun p =>
      readReg .pb s.pb fun pb => k (some (productOf p pb))
  else k none

/-- QUERY (R128): accepted in every phase, no state change. -/
def execQuery (s : State.At c) : Out c :=
  readStatus s fun st =>
    readQueryRegs s fun regs =>
      readProduct s fun prod =>
        .next (s.setResp { status := .ok, recs := [], product := prod, stat := some st, regs := regs })

/-- The reserved command code: rejected, no state change (R65). -/
def execReserved (s : State.At c) : Out c := .next s.reject

end Sys2Proof.Machine
end

