-- ==== Sys2Proof/Syntax.lean ====
section
/-! DEFINITION. The rows of spec/opcode_table.json as one inductive, the three formats their bits come in, and the
assembler lines of 30_encoding.md R72 and R73. -/

namespace Sys2Proof

/-- One constructor per row of the opcode table. The first four are the commands of the command port (R60); the other
five are the micro-operations of STEP (R69, R110), which are not commands. STEP, QUERY and the reserved code carry no
operands because they ignore the operand fields (R64). -/
inductive Instr where
  | query
  /-- `mw`, `nw`: the widths m and n; `mval`, `rval`: the values m_val and r_val (R61, R63). The widths of the four fields
  follow WMAX; `Instr.fits` in WellFormed.lean says what they hold. -/
  | load (mw nw mval rval : Nat)
  | step
  | reserved
  | boothNop00
  | boothAddA
  | boothAddS
  | boothNop11
  | asr
  deriving DecidableEq, Repr

/-- The bits of an opcode-table row, in the row's own format: a command word (`CMD`), a Booth pair (`BOOTH_PAIR`), or
nothing at all (`SHIFT`: "Not selected by any bits"). -/
inductive TableWord (c : Params) where
  | cmd (w : CommandWord c)
  | pair (p : BitVec 2)
  | shift
  deriving DecidableEq, Repr

/-- One line of assembler (R72, R73). A bit string is written most-significant bit first (R49), `true` for `1`. -/
inductive AsmLine where
  | query
  | step
  | op3
  | load (mbits rbits : List Bool)
  | loadr (mval mw rval nw : Nat)
  | run (mbits rbits : List Bool)
  deriving DecidableEq, Repr

end Sys2Proof
end

