-- ==== Sys2Proof/Machine/Dispatch.lean ====
section
/-! DEFINITION. One arm per row of spec/opcode_table.json: each a direct call of that row's meaning. -/

namespace Sys2Proof.Machine
open Sys2Proof

def exec (i : Instr) (s : State) : Host.Outcome State Fault Refusal :=
  match i with
  | .query => Sys2Proof.Machine.execQuery s
  | .load mw nw mval rval => Sys2Proof.Machine.execLoad mw nw mval rval s
  | .step => Sys2Proof.Machine.execStep s
  | .reserved => Sys2Proof.Machine.execReserved s
  | .boothNop00 => Sys2Proof.Machine.execBoothNop00 s
  | .boothAddA => Sys2Proof.Machine.execBoothAddA s
  | .boothAddS => Sys2Proof.Machine.execBoothAddS s
  | .boothNop11 => Sys2Proof.Machine.execBoothNop11 s
  | .asr => Sys2Proof.Machine.execAsr s

end Sys2Proof.Machine
end

