-- ==== Sys2Proof/WellFormed.lean ====
section
/-! DEFINITION. Which instructions may stand on the command port of a block with the parameters `c`, and which assembler lines
have a command word there. -/

namespace Sys2Proof

/-- A width fits the `WF` bits of its field (R61). -/
def widthFits (c : Params) (w : Nat) : Bool := decide (w < 2 ^ c.wf)

/-- A value fits the `PB_MAX` bits of its field (R61). -/
def valueFits (c : Params) (v : Nat) : Bool := decide (v < 2 ^ c.pbMax)

/-- A bit string is no longer than the value field (R144). -/
def bitsFit (c : Params) (b : List Bool) : Bool := decide (b.length ≤ c.pbMax)

/-- A row that is a command of the command port (R60). A micro-operation is "not a command" (opcode_table.json). -/
def Instr.isCommand : Instr → Bool
  | .query => true
  | .load _ _ _ _ => true
  | .step => true
  | .reserved => true
  | .boothNop00 => false
  | .boothAddA => false
  | .boothAddS => false
  | .boothNop11 => false
  | .asr => false

/-- Every operand fits its field of the command word (R61). Only LOAD has operands (R64). -/
def Instr.fits (c : Params) : Instr → Bool
  | .load mw nw mval rval => widthFits c mw && widthFits c nw && valueFits c mval && valueFits c rval
  | .query => true
  | .step => true
  | .reserved => true
  | .boothNop00 => true
  | .boothAddA => true
  | .boothAddS => true
  | .boothNop11 => true
  | .asr => true

/-- The instructions that have a command word: a command whose operands fit their fields. -/
def Instr.wf (c : Params) (i : Instr) : Bool := i.isCommand && i.fits c

/-- The lines that have a command word: every number and string fits its field (R61, R72, R144). -/
def AsmLine.wf (c : Params) : AsmLine → Bool
  | .query => true
  | .step => true
  | .op3 => true
  | .load mbits rbits => bitsFit c mbits && bitsFit c rbits
  | .loadr mval mw rval nw => valueFits c mval && widthFits c mw && valueFits c rval && widthFits c nw
  | .run mbits rbits => bitsFit c mbits && bitsFit c rbits

end Sys2Proof
end

