-- ==== Sys2Proof/Decode.lean ====
section
/-! DEFINITION. The decoder of the command word and of the Booth pair (30_encoding.md R61 to R63, R69) for a block with the
parameters `c`, the encoder written from the same tables, and the host's numbering of an opcode-table row's bits. -/

namespace Sys2Proof

/-- `op`, bits [1:0] of the command word (R61). -/
def opOf (c : Params) (w : CommandWord c) : BitVec 2 := w.extractLsb' 0 2

/-- `mw`, bits [1+WF:2] (R61). -/
def mwOf (c : Params) (w : CommandWord c) : Count c := w.extractLsb' 2 c.wf

/-- `nw`, bits [1+2·WF:2+WF] (R61). -/
def nwOf (c : Params) (w : CommandWord c) : Count c := w.extractLsb' (2 + c.wf) c.wf

/-- `mval`, bits [1+2·WF+PB_MAX:2+2·WF] (R61). -/
def mvalOf (c : Params) (w : CommandWord c) : Value c := w.extractLsb' (2 + 2 * c.wf) c.pbMax

/-- `rval`, bits [1+2·WF+2·PB_MAX:2+2·WF+PB_MAX] (R61). -/
def rvalOf (c : Params) (w : CommandWord c) : Value c := w.extractLsb' (2 + 2 * c.wf + c.pbMax) c.pbMax

/-- The command is selected from `op` alone, and every value of `op` decodes (R62). LOAD's operands are read straight
from the fields (R63); the other three ignore them (R64). -/
def decodeCmd (c : Params) (w : CommandWord c) : Instr :=
  if opOf c w = 0b00#2 then .query
  else if opOf c w = 0b01#2 then
    .load (mwOf c w).toNat (nwOf c w).toNat (mvalOf c w).toNat (rvalOf c w).toNat
  else if opOf c w = 0b10#2 then .step
  else .reserved

/-- The Booth pair selects the accumulator operation; all four values are listed (R69, R70). -/
def decodePair (p : BitVec 2) : Instr :=
  if p = 0b00#2 then .boothNop00
  else if p = 0b01#2 then .boothAddA
  else if p = 0b10#2 then .boothAddS
  else .boothNop11

/-- The decoder over the table's three formats. It is total. -/
def decodeWord (c : Params) : TableWord c → Instr
  | .cmd w => decodeCmd c w
  | .pair p => decodePair p
  | .shift => .asr

/-- A command word from its fields, each at its place (R61). -/
def encodeCmd (c : Params) (op : BitVec 2) (mw nw : Count c) (mval rval : Value c) : CommandWord c :=
  BitVec.ofNat c.cw
    (op.toNat + mw.toNat * 2 ^ 2 + nw.toNat * 2 ^ (2 + c.wf) + mval.toNat * 2 ^ (2 + 2 * c.wf) +
      rval.toNat * 2 ^ (2 + 2 * c.wf + c.pbMax))

/-- The encoder: the word of R61 for a command, with the ignored fields 0 as R72 writes them; the pair of R69 for a
Booth row; no bits for ASR. An operand that does not fit (`Instr.fits`) has no encoding and is cut to its field. -/
def encode (c : Params) : Instr → TableWord c
  | .query => .cmd (encodeCmd c 0b00#2 0 0 0 0)
  | .load mw nw mval rval =>
    .cmd (encodeCmd c 0b01#2 (BitVec.ofNat c.wf mw) (BitVec.ofNat c.wf nw) (BitVec.ofNat c.pbMax mval)
      (BitVec.ofNat c.pbMax rval))
  | .step => .cmd (encodeCmd c 0b10#2 0 0 0 0)
  | .reserved => .cmd (encodeCmd c 0b11#2 0 0 0 0)
  | .boothNop00 => .pair 0b00#2
  | .boothAddA => .pair 0b01#2
  | .boothAddS => .pair 0b10#2
  | .boothNop11 => .pair 0b11#2
  | .asr => .shift

/-- Why a number of bits is no word of the opcode table. -/
inductive DecodeReject where
  /-- The SHIFT format has no bits, so none may be set. -/
  | shiftTakesNoBits
  /-- The BOOTH_PAIR format has bits 1 and 0 only. -/
  | pairTooWide
  /-- The command port has `CW` bits, and a bit above them was set. -/
  | commandTooWide
  deriving DecidableEq, Repr

/-- The table's format from a row's number of bits (rounded up to whole bytes by the host): none for SHIFT, at most a
byte for BOOTH_PAIR, more for CMD (`CW` is at least 12). DESIGN CHOICE, log 17: the block itself never chooses between the
formats, since commands come on the port and the pair from `P[1:0]`. -/
def tableWordOf (c : Params) (nbits w : Nat) : Except DecodeReject (TableWord c) :=
  if nbits = 0 then
    if w = 0 then .ok .shift else .error .shiftTakesNoBits
  else if nbits ≤ 8 then
    if w < 2 ^ 2 then .ok (.pair (BitVec.ofNat 2 w)) else .error .pairTooWide
  else
    if w < 2 ^ c.cw then .ok (.cmd (BitVec.ofNat c.cw w)) else .error .commandTooWide

/-- The instruction the decoder reads from a row's bits, or the name of the reason it reads none. -/
def decodeBits (c : Params) (nbits w : Nat) : Except DecodeReject Instr :=
  match tableWordOf c nbits w with
  | .ok t => .ok (decodeWord c t)
  | .error r => .error r

/-- The host's question: the instruction that this hardware's decoder reads from `nbits` bits whose value is `w`, none where it
refuses. -/
def decodeTableWord (nbits w : Nat) : Option Instr :=
  match decodeBits Config.hw nbits w with
  | .ok i => some i
  | .error _ => none

end Sys2Proof
end

