-- ==== Sys2Proof/Machine/Port.lean ====
section
/-! DEFINITION. The command port and the reset input: how the next input reaches the block (20_memory.md R51, R55,
70_reset_and_hazards.md R180), and how an opcode-table row's bits are placed so that the next step runs that row. -/

namespace Sys2Proof.Machine
open Sys2Proof

variable {c : Params}

/-- What runs a row on a block: `exec` for this hardware, `execAt` for any parameters. -/
abbrev Executor (c : Params) := Instr → State.At c → Out c

/-- One input of the host: a command word is decoded and executed as one transaction (R51, R62); the reset input puts the
block in its reset state (R180). -/
def runInput (ex : Executor c) (i : Input c) (s : State.At c) : Out c :=
  match i with
  | .command w => ex (decodeCmd c w) s
  | .reset => .next s.resetInput

/-- Inputs are consumed one at a time, in order (R55, R58). With none waiting, the block "holds its state unchanged"
(R174). -/
def portStep (ex : Executor c) (s : State.At c) : Out c :=
  match s.inputs with
  | [] => .next s
  | i :: rest => runInput ex i (s.setInputs rest)

/-- Put a command word on the port, before everything the host was going to send. -/
def State.At.sendNext (s : State.At c) (w : CommandWord c) : State.At c := s.setInputs (.command w :: s.inputs)

/-- The command word of STEP (R72). -/
def stepWord (c : Params) : CommandWord c := encodeCmd c 0b10#2 0 0 0 0

/-- Whether a STEP can run here: PHASE = RUN and every register it may read holds a value. -/
def State.At.runLoaded (s : State.At c) : Bool :=
  decide (s.phase = .run) && s.pb.isSome && s.W.isSome && s.A.isSome && s.S.isSome && s.P.isSome && s.rem.isSome

/-- The block with a run on it: its own, or else the smallest run, that of `LOAD 1, 1` (R80). The response port and the
inputs stand. -/
def State.At.ensureRun (s : State.At c) : State.At c :=
  if s.runLoaded then s else { s.startRun (geometryOf 1 1) 1 1 1 with resp := s.resp }

/-- The block with `P[1:0]` set to `pair`, the other bits of P as they were. -/
def State.At.selectPair (s : State.At c) (pair : BitVec 2) : State.At c :=
  { s with P := s.P.map fun p => toReg (p.toNat / 4 * 4 + pair.toNat) }

/-- Place an opcode-table row so that the next step runs it. A command goes on the command port. A Booth row is selected
by `P[1:0]` of a running block and performed by a STEP (R69, R100), and ASR is performed by every STEP (R110), so those rows
are placed as a STEP with that pair (log 8). -/
def State.At.place (s : State.At c) : TableWord c → State.At c
  | .cmd w => s.sendNext w
  | .pair p => (s.ensureRun.selectPair p).sendNext (stepWord c)
  | .shift => (s.ensureRun.selectPair 0b00#2).sendNext (stepWord c)

end Sys2Proof.Machine
end

