-- ==== Sys2Proof/Machine/Step.lean ====
section
/-! DEFINITION. One step of the machine, and the placing of an opcode-table row where step takes its next instruction. -/

namespace Sys2Proof.Machine
open Sys2Proof

/-- One step: the next input of the host, taken as one transaction. -/
def step (s : State) : Host.Outcome State Fault Refusal := portStep exec s

/-- `s` with the instruction whose table bits are `w` placed so that the very next step runs it; `s` itself where the
decoder refuses the bits. -/
def State.withFetchWord (s : State) (nbits w : Nat) : State :=
  match tableWordOf Config.hw nbits w with
  | .ok t => s.place t
  | .error _ => s

end Sys2Proof.Machine
end

