-- ==== Sys2Proof/Machine/Block.lean ====
section
/-! DEFINITION. A block built with any parameters (00_scope.md R7): the meaning of every row and one step. Dispatch.lean and
Step.lean are the same for this hardware's parameters `Config.hw`; Laws/Block.lean ties the two. -/

namespace Sys2Proof.Machine
open Sys2Proof

/-- The meaning of every row of the opcode table on a block with the parameters `c`. -/
def execAt {c : Params} (i : Instr) (s : State.At c) : Out c :=
  match i with
  | .query => execQuery s
  | .load mw nw mval rval => execLoad mw nw mval rval s
  | .step => execStep s
  | .reserved => execReserved s
  | .boothNop00 => execBoothNop00 s
  | .boothAddA => execBoothAddA s
  | .boothAddS => execBoothAddS s
  | .boothNop11 => execBoothNop11 s
  | .asr => execAsr s

/-- One step of a block with the parameters `c`: the next input of the host, taken as one transaction. -/
def stepAt {c : Params} (s : State.At c) : Out c := portStep execAt s

end Sys2Proof.Machine
end

