-- ==== Sys2Proof/Machine/HostSide.lean ====
section
/-! DEFINITION. The host's procedures (44_host_interface.md): `parse`, `format`, `multiply`, the mapping of status codes to
the source's errors, and the RUN expansion as the host issues it (30_encoding.md R73). They are not part of the block: "Rules
here constrain the host, not the block". Text is a list of characters (log 15). -/

namespace Sys2Proof.Machine
open Sys2Proof

variable {c : Params}

/-- The source's error kinds (R142), and two outcomes of a host that the rules exclude. -/
inductive HostError where
  /-- `InvalidOperandError`: raised by `parse` (R141) or mapped from status 1. -/
  | invalidOperand
  /-- `RegisterWidthOverflowError`: raised by the host itself (R144) or mapped from status 2. -/
  | registerWidthOverflow
  /-- `InternalInvariantError`: mapped from status 3, which no command returns. -/
  | internalInvariant
  /-- Status 4: "the host broke the command protocol" (R142). -/
  | brokenProtocol
  /-- The model's block stopped (R36). -/
  | blockStopped
  deriving DecidableEq, Repr

/-- A character of an operand string (R141). -/
def bitOfChar (c : Char) : Option Bool := if c = '0' then some false else if c = '1' then some true else none

/-- The characters of an operand string as bits, none if one is outside `0` and `1` (R141). -/
def bitsOfText : List Char → Option (List Bool)
  | [] => some []
  | c :: cs =>
    match bitOfChar c, bitsOfText cs with
    | some b, some bs => some (b :: bs)
    | _, _ => none

/-- `value = Σ digit(s[i]) · 2^(len(s)-1-i)`: the first bit is the most significant (R141). -/
def bitsValue : List Bool → Nat
  | [] => 0
  | b :: bs => b.toNat * 2 ^ bs.length + bitsValue bs

/-- `parse(s)`: the value and the bit length, leading zeros kept (R141, R143). -/
def parse (s : List Char) : Except HostError (Nat × Nat) :=
  match bitsOfText s with
  | none => .error .invalidOperand
  | some [] => .error .invalidOperand
  | some (b :: bs) => .ok (bitsValue (b :: bs), (b :: bs).length)

/-- The `w`-character binary form of `mask(v, w)`, most significant bit first, zero-padded (R145). -/
def binaryText : Nat → Nat → List Char
  | 0, _ => []
  | w + 1, v => (if bitAt v w = 1 then '1' else '0') :: binaryText w v

/-- `format(v, pb)`: the upper window, the lower window and the comparison bit, separated by single spaces (R145). -/
def format (v pb : Nat) : List Char :=
  let s := binaryText (2 * pb + 1) (mask v (2 * pb + 1))
  s.take pb ++ ' ' :: ((s.drop pb).take pb ++ ' ' :: s.drop (2 * pb))

/-- A record as the host prints it; the layout of the line is open (R147). -/
def traceLine (r : TraceRecord c) (pb : Nat) : List Char :=
  Config.traceLineFormat r.label.text (format r.value.toNat pb)

/-- The error kind of a status code, none for `OK` (R142). -/
def errorOf : Status → Option HostError
  | .ok => none
  | .invalidOperand => some .invalidOperand
  | .widthOverflow => some .registerWidthOverflow
  | .internalInvariant => some .internalInvariant
  | .rejected => some .brokenProtocol

/-- Issue one command: the block after it, and its response. None where the model's block stops. -/
def issue (i : Instr) (s : State.At c) : Option (State.At c × Response c) :=
  match execAt i s with
  | .next t => t.resp.map fun r => (t, r)
  | .fault _ => none
  | .refused _ => none

/-- Issue `k` STEPs, collecting their responses in order. -/
def issueSteps : Nat → State.At c → Option (State.At c × List (Response c))
  | 0, s => some (s, [])
  | k + 1, s =>
    match issue .step s with
    | none => none
    | some (t, r) => (issueSteps k t).map fun x => (x.1, r :: x.2)

/-- `RUN`: LOAD, then `m + n` STEPs; after a LOAD whose status is not `OK` no STEP is issued (R73). -/
def issueRun (m n mval rval : Nat) (s : State.At c) : Option (State.At c × List (Response c)) :=
  match issue (.load m n mval rval) s with
  | none => none
  | some (t, r) =>
    if r.status = .ok then (issueSteps (m + n) t).map fun x => (x.1, r :: x.2)
    else some (t, [r])

/-- `MultiplicationTrace`: the records of the LOAD and its STEPs, "terminated by a final `Product` value" (R66, R140). -/
structure MultiplicationTrace (c : Params) where
  recs : List (TraceRecord c)
  product : Value c
  deriving DecidableEq, Repr

/-- What `multiply` makes of the responses of a run: an error returns no records (R142); else the records in order and the
product of the last response (R140). -/
def traceOf (rs : List (Response c)) : Except HostError (MultiplicationTrace c) :=
  match rs.findSome? fun r => errorOf r.status with
  | some e => .error e
  | none =>
    match rs.getLast?.bind (·.product) with
    | some p => .ok { recs := rs.flatMap (·.recs), product := p }
    | none => .error .blockStopped

/-- `multiply(mbits, rbits)` (R140), with the block it leaves behind. The host's own width check sends no command (R144). -/
def multiply (mbits rbits : List Char) (s : State.At c) : State.At c × Except HostError (MultiplicationTrace c) :=
  match parse mbits with
  | .error e => (s, .error e)
  | .ok (mval, m) =>
    match parse rbits with
    | .error e => (s, .error e)
    | .ok (rval, n) =>
      if c.pbMax < m ∨ c.pbMax < n then (s, .error .registerWidthOverflow)
      else
        match issueRun m n mval rval s with
        | none => (s, .error .blockStopped)
        | some (t, rs) => (t, traceOf rs)

end Sys2Proof.Machine
end

