-- ==== Sys2Proof/Machine/Assembler.lean ====
section
/-! DEFINITION. The assembler of 30_encoding.md R72 and R73: a line of text to an `AsmLine`, and an `AsmLine` to command
words. What R72 does not fix about the text (blanks, the case of hexadecimal digits) is log 18. -/

namespace Sys2Proof.Machine
open Sys2Proof

/-- The command word of `LOAD <mbits>, <rbits>` (R72). -/
def loadWord (c : Params) (mbits rbits : List Bool) : CommandWord c :=
  encodeCmd c 0b01#2 (toCount mbits.length) (toCount rbits.length) (toValue (bitsValue mbits)) (toValue (bitsValue rbits))

/-- The command words of a line (R72); `RUN` is LOAD followed by `len + len` STEPs (R73). None where a number or a string
does not fit its field. -/
def assemble (c : Params) (l : AsmLine) : Option (List (CommandWord c)) :=
  if l.wf c then
    match l with
    | .query => some [encodeCmd c 0b00#2 0 0 0 0]
    | .step => some [stepWord c]
    | .op3 => some [encodeCmd c 0b11#2 0 0 0 0]
    | .load mbits rbits => some [loadWord c mbits rbits]
    | .loadr mval mw rval nw => some [encodeCmd c 0b01#2 (toCount mw) (toCount nw) (toValue mval) (toValue rval)]
    | .run mbits rbits => some (loadWord c mbits rbits :: List.replicate (mbits.length + rbits.length) (stepWord c))
  else none

/-! ### Text -/

/-- A blank of a line: space or tab. -/
def isBlank (c : Char) : Bool := c == ' ' || c == '\t'

/-- A line without its comment: "`;` starts a comment" (R72). -/
def stripComment (s : List Char) : List Char := s.takeWhile (· != ';')

/-- Blanks at both ends removed. -/
def trimBlanks (s : List Char) : List Char := ((s.dropWhile isBlank).reverse.dropWhile isBlank).reverse

/-- The operands between commas. -/
def splitCommas : List Char → List (List Char)
  | [] => [[]]
  | c :: cs =>
    if c = ',' then [] :: splitCommas cs
    else
      match splitCommas cs with
      | [] => [[c]]
      | w :: ws => (c :: w) :: ws

/-- A bit-string operand; two double quotes are the empty string (R72). -/
def bitsOperand (t : List Char) : Option (List Bool) :=
  if t = [Char.ofNat 34, Char.ofNat 34] then some []
  else
    match t with
    | [] => none
    | c :: cs => bitsOfText (c :: cs)

/-- The value of a digit in base `b`, 10 or 16. -/
def digitValue (b : Nat) (c : Char) : Option Nat :=
  let v :=
    if '0' ≤ c ∧ c ≤ '9' then c.toNat - 48
    else if 'a' ≤ c ∧ c ≤ 'f' then c.toNat - 87
    else if 'A' ≤ c ∧ c ≤ 'F' then c.toNat - 55
    else b
  if v < b then some v else none

/-- Digits in base `b`, most significant first, after the value `acc`. -/
def digitsValue (b : Nat) : Nat → List Char → Option Nat
  | acc, [] => some acc
  | acc, c :: cs =>
    match digitValue b c with
    | some d => digitsValue b (acc * b + d) cs
    | none => none

/-- A number: "decimal, or hexadecimal with a `0x` prefix" (R72). -/
def numberOperand : List Char → Option Nat
  | [] => none
  | '0' :: 'x' :: c :: cs => digitsValue 16 0 (c :: cs)
  | c :: cs => digitsValue 10 0 (c :: cs)

/-- A line that holds a command, from its word and its operands (R72, R73). -/
def lineOf (word : List Char) (args : List (List Char)) : Option AsmLine :=
  if word = "QUERY".toList ∧ args = [[]] then some .query
  else if word = "STEP".toList ∧ args = [[]] then some .step
  else if word = ".op3".toList ∧ args = [[]] then some .op3
  else if word = "LOAD".toList then
    match args with
    | [a, b] =>
      match bitsOperand a, bitsOperand b with
      | some m, some r => some (.load m r)
      | _, _ => none
    | _ => none
  else if word = "RUN".toList then
    match args with
    | [a, b] =>
      match bitsOperand a, bitsOperand b with
      | some m, some r => some (.run m r)
      | _, _ => none
    | _ => none
  else if word = "LOADR".toList then
    match args with
    | [a, b, c, d] =>
      match numberOperand a, numberOperand b, numberOperand c, numberOperand d with
      | some mv, some mw, some rv, some nw => some (.loadr mv mw rv nw)
      | _, _, _, _ => none
    | _ => none
  else none

/-- The words of one line of text: no word for a blank or comment line, none of all where the line is no line of R72. -/
def assembleText (c : Params) (s : List Char) : Option (List (CommandWord c)) :=
  let t := trimBlanks (stripComment s)
  match t with
  | [] => some []
  | _ :: _ =>
    let word := t.takeWhile fun c => !isBlank c
    let args := (splitCommas (t.dropWhile fun c => !isBlank c)).map trimBlanks
    (lineOf word args).bind (assemble c)

end Sys2Proof.Machine
end

