-- ==== Sys2Proof/Safety.lean ====
section
/-! DEFINITION. The terms the statements use: the registers of a run, the invariant of 10_state.md R34 with R22, R26 and
R29, valid operands (40_load.md R81, R83), and a LOAD followed by STEPs, each for a block with any parameters. -/

namespace Sys2Proof.Machine
open Sys2Proof

variable {c : Params}

/-- The values of the seven registers of a run. -/
structure RunRegs (c : Params) where
  pb : Count c
  W : Count c
  hb : Count c
  A : Reg c
  S : Reg c
  P : Reg c
  rem : Count c
  deriving DecidableEq, Repr

/-- The seven registers of the state hold the values of `r`. -/
abbrev State.At.holds (s : State.At c) (r : RunRegs c) : Prop :=
  s.pb = some r.pb ∧ s.W = some r.W ∧ s.hb = some r.hb ∧ s.A = some r.A ∧ s.S = some r.S ∧ s.P = some r.P ∧
    s.rem = some r.rem

/-- The seven registers of the state hold ⊥. -/
abbrev State.At.void (s : State.At c) : Prop :=
  s.pb = none ∧ s.W = none ∧ s.hb = none ∧ s.A = none ∧ s.S = none ∧ s.P = none ∧ s.rem = none

/-- Register `x` holds ⊥. -/
abbrev State.At.lacks (s : State.At c) (x : RunReg) : Prop :=
  match x with
  | .pb => s.pb = none
  | .W => s.W = none
  | .hb => s.hb = none
  | .A => s.A = none
  | .S => s.S = none
  | .P => s.P = none
  | .rem => s.rem = none

/-- The outcome is the fault of reading a register that holds ⊥ in `s` (R36). -/
abbrev FaultsOnUndefined (s : State.At c) (o : Out c) : Prop := ∃ x, s.lacks x ∧ o = .fault (.undefinedRegister x)

/-- A legal run: the geometry of R22, the upper storage bits zero (R26), the low `hb` bits of A and S zero (R106), and
`rem` within the run (R27). -/
abbrev RunRegs.legal (r : RunRegs c) : Prop :=
  2 ≤ r.pb.toNat ∧ r.pb.toNat ≤ c.pbMax ∧ r.W.toNat = 2 * r.pb.toNat + 1 ∧ r.hb.toNat = r.pb.toNat + 1 ∧
    r.A.toNat < 2 ^ r.W.toNat ∧ r.S.toNat < 2 ^ r.W.toNat ∧ r.P.toNat < 2 ^ r.W.toNat ∧
    r.A.toNat % 2 ^ r.hb.toNat = 0 ∧ r.S.toNat % 2 ^ r.hb.toNat = 0 ∧ r.rem.toNat ≤ r.pb.toNat

/-- What ERR can hold in each phase: never REJECTED (R29); `OK` in a run, since an accepted LOAD clears it and STEP does not
write it (R88, R120); in FATAL the internal invariant's code (R164). -/
def errFits : Phase → Status → Bool
  | .idle, e => e == .ok || e == .invalidOperand || e == .widthOverflow
  | .run, e => e == .ok
  | .done, e => e == .ok
  | .fatal, e => e == .internalInvariant

/-- The registers match the phase (R34). -/
def State.At.runFits (s : State.At c) : Prop :=
  match s.phase with
  | .idle => s.void
  | .fatal => s.void
  | .run => ∃ r : RunRegs c, s.holds r ∧ r.legal ∧ 1 ≤ r.rem.toNat
  | .done => ∃ r : RunRegs c, s.holds r ∧ r.legal ∧ r.rem = 0

/-- The response on the port is one the port can carry: at most three records (R66), and after an error no record and no
product (R163). -/
def respFits (r : Response c) : Bool :=
  decide (r.recs.length ≤ 3) && (r.status == .ok || (r.recs.isEmpty && r.product.isNone && r.regs.isNone))

/-- The invariant of the block: R34, with R22, R26, R27, R29, and R66 for the port. -/
def State.At.Inv (s : State.At c) : Prop :=
  s.runFits ∧ errFits s.phase s.err = true ∧ s.resp.all respFits = true

/-- Both operands are valid (R81). -/
abbrev ValidOperands (m n mval rval : Nat) : Prop := 1 ≤ m ∧ mval < 2 ^ m ∧ 1 ≤ n ∧ rval < 2 ^ n

/-- `k` STEPs, one after another. -/
def stepsFrom : Nat → State.At c → Out c
  | 0, s => .next s
  | k + 1, s => andThen (execAt .step s) (stepsFrom k)

/-- A LOAD, then `k` STEPs. -/
def runFor (m n mval rval k : Nat) (s : State.At c) : Out c :=
  andThen (execAt (.load m n mval rval) s) (stepsFrom k)

/-- `r_{k-1}`, with `r_{-1} = 0` (R130): bit `k` of twice the multiplier. -/
def prevBit (r k : Nat) : Nat := bitAt (2 * r) k

/-- The iterations below `pb` that add, those where the multiplier bit changes (R130). -/
def changes (r pb : Nat) : Nat := ((List.range pb).filter fun k => bitAt r k != prevBit r k).length

/-- `Σ_{k ∈ starts(r)} 2^k` over the iterations below `pb` that add S (R132). -/
def startsSum (r pb : Nat) : Nat :=
  (((List.range pb).filter fun k => bitAt r k == 1 && prevBit r k == 0).map fun k => 2 ^ k).sum

/-- The addend of a STEP that sees P: A for the pair 0b01, S for 0b10, else none, as a number (R69). -/
def addendOf (r : RunRegs c) : Nat :=
  if r.P.toNat % 4 = 1 then r.A.toNat else if r.P.toNat % 4 = 2 then r.S.toNat else 0

/-- P after the addition of a STEP: `mask(P + X, W)` (R101 to R104). -/
def sumOf (r : RunRegs c) : Nat := mask (r.P.toNat + addendOf r) r.W.toNat

/-- P after the shift of a STEP: `(v >> 1) | (v[W-1] << (W-1))` of the sum (R110), as a sum of its two parts. -/
def shiftOf (v w : Nat) : Nat := v / 2 + bitAt v (w - 1) * 2 ^ (w - 1)

/-- The records of a STEP that sees P (R126): the addition's, if there is one, then the shift's. -/
def recordsOf (r : RunRegs c) : List (TraceRecord c) :=
  (if r.P.toNat % 4 = 1 then [{ label := .pPlusA, value := toReg (sumOf r) }]
    else if r.P.toNat % 4 = 2 then [{ label := .pPlusS, value := toReg (sumOf r) }]
    else []) ++ [{ label := .shiftP, value := toReg (shiftOf (sumOf r) r.W.toNat) }]

/-- The two's-complement value of the upper window `P[W-1:hb]`, `pb` bits wide (R106, R107). -/
def upperWindow (p pb : Nat) : Int := signedOf (slice p (2 * pb) (pb + 1)) pb

/-- The same block: every piece of the spec's state (R20) and the host's inputs are equal; only the response port may
differ. -/
abbrev SameBlock (s t : State.At c) : Prop := { t with resp := s.resp } = s

end Sys2Proof.Machine
end

