-- ==== Sys2Proof/Certificates/Slice0/Obligations.lean ====
section
/-! DEFINITION. The statements about the block, each from the numbered rules of spec/. A statement about an instruction gives
the whole next state as an update of the state before it, so that what it does not name is unchanged. Statements about `exec`,
`step` and `State` are about this hardware (`Config.hw`); those about `execAt` and `State.At c` hold of every block. -/

open Sys2Proof Sys2Proof.Machine

/-! ### Parameters -/

/-- R7, with R61 and R30: what the derived parameters are for every legal WMAX; a geometry is accepted by WMAX exactly where it is
accepted by PB_MAX; every value a run puts in pb, W, hb and rem fits WF bits; and this hardware's values. -/
def Obligations.ParametersOfTheBlock : Prop :=
  (∀ c : Params, c.legal →
    2 * c.pbMax + 1 = c.wmax ∧ 2 ^ (c.wf - 1) ≤ c.wmax ∧ c.wmax < 2 ^ c.wf ∧
    c.cw = 2 + 2 * c.wf + 2 * c.pbMax ∧ c.statW = 5 + 2 * c.wf ∧
    ∀ pb, (2 * pb + 1 ≤ c.wmax ↔ pb ≤ c.pbMax) ∧ (pb ≤ c.pbMax → pb + 1 < 2 ^ c.wf ∧ 2 * pb + 1 < 2 ^ c.wf)) ∧
  Config.hw.legal ∧ Config.hw.wmax = 63 ∧ Config.hw.pbMax = 31 ∧ Config.hw.wf = 6 ∧ Config.hw.cw = 76 ∧
  Config.hw.statW = 17 ∧ Config.hw.negMode = .window ∧ Config.bitlength 64 = 7

/-- R7: this hardware is the block of every statement about all parameters, taken at `Config.hw`. -/
def Obligations.HardwareIsTheDefaultBlock : Prop :=
  (∀ (i : Instr) (s : State), exec i s = execAt i s) ∧ (∀ s : State, step s = stepAt s) ∧
  State.reset = State.resetAt Config.hw

/-! ### Reset and inputs -/

/-- R35: the value of every piece of state after reset, STATUS as QUERY reads it there, and that neither QUERY nor STEP
observes an undefined register there. -/
def Obligations.ResetValues : Prop :=
  State.reset.phase = .idle ∧ State.reset.err = .ok ∧ State.reset.void ∧
    (∃ t r, exec .query State.reset = .next t ∧ t.resp = some r ∧ r.stat = some 0 ∧ r.regs = none) ∧
    exec .step State.reset = .next { State.reset with resp := some (Response.bare .rejected) }

/-- R180: the reset input acts in every phase, gives every piece of state its reset value and no response, and is the only
way out of FATAL; after it the block answers any command. -/
def Obligations.ResetInputFromEveryPhase : Prop :=
  (∀ (s : State) (rest : List (Input Config.hw)), s.inputs = .reset :: rest →
    step s = .next { phase := .idle, err := .ok, pb := none, W := none, hb := none, A := none, S := none, P := none,
                     rem := none, resp := none, inputs := rest }) ∧
  (∀ s t : State, s.phase = .fatal → step s = .next t → t.phase ≠ .fatal → ∃ rest, s.inputs = .reset :: rest) ∧
  (∀ w : CommandWord Config.hw, ∃ t r, exec (decodeCmd Config.hw w) State.reset = .next t ∧ t.resp = some r)

/-- R174: with no input the block holds its state for any number of steps; a step that changes anything without a command is
a reset. -/
def Obligations.HoldsStateBetweenInputs : Prop :=
  (∀ (s : State) (k : Nat), s.inputs = [] → Sys2Proof.core.run k s = .next s) ∧
  (∀ s t : State, step s = .next t → t ≠ s →
    (∃ w rest, s.inputs = .command w :: rest) ∨ (∃ rest, s.inputs = .reset :: rest))

/-- R51, R55, R62: a command word that reaches the port is decoded to a well-formed instruction, and the step is that
instruction's execution on the block with the word consumed. -/
def Obligations.StepRunsDecodedCommand : Prop :=
  ∀ (s : State) (w : CommandWord Config.hw) (rest : List (Input Config.hw)), s.inputs = .command w :: rest →
    (decodeCmd Config.hw w).wf Config.hw = true ∧ step s = exec (decodeCmd Config.hw w) { s with inputs := rest }

/-! ### Encoding -/

/-- R62, R64: the command is selected from `op` alone, every value decodes, and STEP, QUERY and the reserved code ignore the
other fields. -/
def Obligations.DecodeSelectsByOp : Prop :=
  ∀ (c : Params) (w : CommandWord c),
    (w.toNat % 4 = 0 → decodeCmd c w = .query) ∧
    (w.toNat % 4 = 1 → ∃ m n mv rv, decodeCmd c w = .load m n mv rv) ∧
    (w.toNat % 4 = 2 → decodeCmd c w = .step) ∧
    (w.toNat % 4 = 3 → decodeCmd c w = .reserved)

/-- R61, R63: LOAD's operands are the fields of the word, at the places that WF and PB_MAX give them, with no sign extension,
scaling or offset; and LOAD refuses a value that its declared width does not hold. -/
def Obligations.LoadFieldsReadStraight : Prop :=
  ∀ (c : Params) (w : CommandWord c), w.toNat % 4 = 1 →
    ∃ m n mv rv : Nat, decodeCmd c w = .load m n mv rv ∧
      m = w.toNat / 2 ^ 2 % 2 ^ c.wf ∧ n = w.toNat / 2 ^ (2 + c.wf) % 2 ^ c.wf ∧
      mv = w.toNat / 2 ^ (2 + 2 * c.wf) % 2 ^ c.pbMax ∧ rv = w.toNat / 2 ^ (2 + 2 * c.wf + c.pbMax) % 2 ^ c.pbMax ∧
      ∀ s : State.At c, s.phase ≠ .fatal → (2 ^ m ≤ mv ∨ 2 ^ n ≤ rv) →
        ∃ t, execAt (decodeCmd c w) s = .next t ∧ t.err = .invalidOperand

/-- R61, R62, R69: at every WMAX, decoding an encoded row gives the row back, with every operand that fits its field; exactly
the four commands have a command word; and what a command word decodes to is well-formed. -/
def Obligations.DecodeOfEncodeIsIdentity : Prop :=
  ∀ c : Params,
    (∀ i : Instr, i.fits c = true → decodeWord c (encode c i) = i) ∧
    (∀ i : Instr, i.isCommand = true ↔ ∃ w, encode c i = .cmd w) ∧
    (∀ w : CommandWord c, (decodeCmd c w).wf c = true)

/-- R61 ("No bits are unassigned"): at every WMAX a LOAD word is the encoding of what it decodes to, so no bit of it is
dropped. -/
def Obligations.LoadWordIsItsEncoding : Prop :=
  ∀ (c : Params) (w : CommandWord c), w.toNat % 4 = 1 → encode c (decodeCmd c w) = .cmd w

/-- R74: the encoded examples, from their text, and what their words decode to. -/
def Obligations.EncodedExamples : Prop :=
  assembleText Config.hw "QUERY".toList = some [0x0000000000000000000] ∧
  assembleText Config.hw "STEP".toList = some [0x0000000000000000002] ∧
  assembleText Config.hw ".op3".toList = some [0x0000000000000000003] ∧
  assembleText Config.hw "LOAD 0111, 0011".toList = some [0x000000060000001c411] ∧
  assembleText Config.hw "LOAD 1000, 0010".toList = some [0x0000000400000020411] ∧
  assembleText Config.hw "LOAD 0000, 1111".toList = some [0x0000001e00000000411] ∧
  assembleText Config.hw "LOAD 1, 1".toList = some [0x0000000200000004105] ∧
  assembleText Config.hw "LOAD 11, 11".toList = some [0x000000060000000c209] ∧
  assembleText Config.hw "LOADR 0, 0, 3, 2".toList = some [0x0000000600000000201] ∧
  assembleText Config.hw "LOAD 1111111111111111, 111111111111111".toList = some [0x0000fffe0003fffcf41] ∧
  assembleText Config.hw "LOAD 1111111111111111, 1111111111111111".toList = some [0x0001fffe0003fffd041] ∧
  decodeCmd Config.hw 0x000000060000001c411 = .load 4 4 7 3 ∧
  decodeCmd Config.hw 0x0000fffe0003fffcf41 = .load 16 15 0xffff 0x7fff ∧
  decodeCmd Config.hw 0x0000000000000000003 = .reserved

/-! ### LOAD -/

/-- R82, R84, R86, R88, R89: an accepted LOAD, from any phase but FATAL: the whole next state. S is under WINDOW (R85). -/
def Obligations.AcceptedLoadResult : Prop :=
  ∀ (s : State) (m n mv rv : Nat), s.phase ≠ .fatal → ValidOperands m n mv rv → m + n ≤ Config.hw.pbMax →
    ∃ (pb W hb : Count Config.hw) (a sv p : Reg Config.hw),
      pb.toNat = m + n ∧ W.toNat = 2 * pb.toNat + 1 ∧ hb.toNat = pb.toNat + 1 ∧
      a.toNat = mv * 2 ^ hb.toNat ∧ sv.toNat = (2 ^ pb.toNat - mv) % 2 ^ pb.toNat * 2 ^ hb.toNat ∧ p.toNat = 2 * rv ∧
      exec (.load m n mv rv) s = .next
        { phase := .run, err := .ok, pb := some pb, W := some W, hb := some hb, A := some a, S := some sv, P := some p,
          rem := some pb, inputs := s.inputs,
          resp := some { status := .ok, recs := [⟨.a, a⟩, ⟨.s, sv⟩, ⟨.p, p⟩], product := none, stat := none,
                         regs := none } }

/-- R85: S in both modes, at every WMAX. WINDOW, this hardware's: S holds `(2^pb - m_val) mod 2^pb` at offset `hb`, A and S sum
to 0 modulo `2^W`, S is 0 for multiplicand 0 and else the W-bit two's-complement encoding of `-(m_val · 2^hb)`. OPERAND: S holds
`(2^m - m_val) mod 2^m` at offset `hb`, with a clear top bit. -/
def Obligations.NegatedMultiplicand : Prop :=
  Config.hw.negMode = .window ∧
  ∀ (c : Params) (s : State.At c) (m n mv rv : Nat), c.legal → s.phase ≠ .fatal → ValidOperands m n mv rv →
    m + n ≤ c.pbMax →
    ∃ (t : State.At c) (W hb : Count c) (a sv : Reg c), execAt (.load m n mv rv) s = .next t ∧
      t.W = some W ∧ t.hb = some hb ∧ t.A = some a ∧ t.S = some sv ∧
      hb.toNat = m + n + 1 ∧ W.toNat = 2 * (m + n) + 1 ∧
      (c.negMode = .window →
        sv.toNat = (2 ^ (m + n) - mv) % 2 ^ (m + n) * 2 ^ hb.toNat ∧
        (a.toNat + sv.toNat) % 2 ^ W.toNat = 0 ∧ (mv = 0 → sv = 0) ∧
        (mv ≠ 0 → bitAt sv.toNat (W.toNat - 1) = 1 ∧ signedOf sv.toNat W.toNat = -((mv : Int) * 2 ^ hb.toNat))) ∧
      (c.negMode = .operand →
        sv.toNat = (2 ^ m - mv) % 2 ^ m * 2 ^ hb.toNat ∧ bitAt sv.toNat (W.toNat - 1) = 0)

/-- R87: for every valid operand pair of a legal geometry the masks after construction remove no set bit, in both modes. -/
def Obligations.BuilderMasksRemoveNothing : Prop :=
  ∀ (mode : NegMode) (m n mv rv : Nat), 1 ≤ m → mv < 2 ^ m → 1 ≤ n → rv < 2 ^ n →
    buildA (geometryOf m n) mv = mv * 2 ^ (m + n + 1) ∧
    buildS mode (geometryOf m n) mv m = twosComp mv (negWidth mode (geometryOf m n) m) * 2 ^ (m + n + 1) ∧
    buildP (geometryOf m n) rv = 2 * rv

/-- R81, R92, R161: an invalid operand fails the LOAD from any phase but FATAL, whatever the widths: IDLE, the code in ERR,
every run register ⊥, no record. -/
def Obligations.LoadInvalidOperandFails : Prop :=
  ∀ (s : State) (m n mv rv : Nat), s.phase ≠ .fatal → ¬ ValidOperands m n mv rv →
    exec (.load m n mv rv) s = .next
      { phase := .idle, err := .invalidOperand, pb := none, W := none, hb := none, A := none, S := none, P := none,
        rem := none, resp := some (Response.bare .invalidOperand), inputs := s.inputs }

/-- R83, R92, R162: valid operands whose widths sum to more than `PB_MAX` fail the LOAD with WIDTH_OVERFLOW. -/
def Obligations.LoadWidthOverflowFails : Prop :=
  ∀ (s : State) (m n mv rv : Nat), s.phase ≠ .fatal → ValidOperands m n mv rv → Config.hw.wmax < 2 * (m + n) + 1 →
    Config.hw.pbMax < m + n ∧
    exec (.load m n mv rv) s = .next
      { phase := .idle, err := .widthOverflow, pb := none, W := none, hb := none, A := none, S := none, P := none,
        rem := none, resp := some (Response.bare .widthOverflow), inputs := s.inputs }

/-- R91: LOAD in FATAL is rejected with no state change, and no command leaves FATAL. -/
def Obligations.LoadRejectedInFatal : Prop :=
  (∀ (s : State) (m n mv rv : Nat), s.phase = .fatal →
    exec (.load m n mv rv) s = .next { s with resp := some (Response.bare .rejected) }) ∧
  (∀ (s t : State) (w : CommandWord Config.hw), s.phase = .fatal → exec (decodeCmd Config.hw w) s = .next t →
    t.phase = .fatal)

/-- R166: at every WMAX a LOAD reports exactly one status, the first check in order that applies. -/
def Obligations.LoadStatusPriority : Prop :=
  ∀ (c : Params) (s : State.At c) (m n mv rv : Nat), c.legal →
    ∃ t r, execAt (.load m n mv rv) s = .next t ∧ t.resp = some r ∧
      r.status =
        if s.phase = .fatal then .rejected
        else if m = 0 ∨ 2 ^ m ≤ mv then .invalidOperand
        else if n = 0 ∨ 2 ^ n ≤ rv then .invalidOperand
        else if c.pbMax < m + n then .widthOverflow
        else .ok

/-- R90: LOAD is accepted in IDLE, RUN and DONE (its response is not REJECTED), and nothing of the block before it affects what
it leaves: two blocks that agree on nothing but the host's later inputs are equal after it, whether it succeeds or fails. -/
def Obligations.LoadForgetsEarlierRun : Prop :=
  ∀ (s s' : State) (m n mv rv : Nat), s.phase ≠ .fatal → s'.phase ≠ .fatal → s.inputs = s'.inputs →
    exec (.load m n mv rv) s = exec (.load m n mv rv) s' ∧
    ∃ t r, exec (.load m n mv rv) s = .next t ∧ t.resp = some r ∧ r.status ≠ .rejected ∧
      (r.status = .ok ∧ t.phase = .run ∨ r.status ≠ .ok ∧ t.phase = .idle ∧ t.void)

/-! ### The accumulator -/

/-- R101: pair 0b00 or 0b11 adds nothing and emits nothing; in a STEP the shift still follows, as its only record. -/
def Obligations.NoAdditionPairs : Prop :=
  (∀ (s : State) (p : Reg Config.hw), s.P = some p → exec .boothNop00 s = .next s ∧ exec .boothNop11 s = .next s) ∧
  (∀ (s : State) (r : RunRegs Config.hw), s.phase = .run → s.holds r → r.legal →
    r.P.toNat % 4 = 0 ∨ r.P.toNat % 4 = 3 →
    ∃ (t : State) (q : Reg Config.hw) (resp : Response Config.hw), exec .step s = .next t ∧ t.P = some q ∧
      q.toNat = shiftOf r.P.toNat r.W.toNat ∧ t.resp = some resp ∧ resp.recs = [⟨.shiftP, q⟩])

/-- R102: pair 0b01 writes `mask(P + A, W)` to P and emits it as `P+A` into the current command's response, and nothing else
changes; for A = 0 too. -/
def Obligations.AddMultiplicandResult : Prop :=
  ∀ (s : State) (p a : Reg Config.hw) (w : Count Config.hw) (c : Response Config.hw),
    s.P = some p → s.A = some a → s.W = some w → s.resp = some c →
    ∃ q : Reg Config.hw, q.toNat = (p.toNat + a.toNat) % 2 ^ w.toNat ∧
      exec .boothAddA s = .next { s with P := some q, resp := some (c.addRecord .pPlusA q) }

/-- R103: pair 0b10 writes `mask(P + S, W)` to P and emits it as `P+S` into the current command's response, and nothing else
changes; for S = 0 too. -/
def Obligations.AddNegatedMultiplicandResult : Prop :=
  ∀ (s : State) (p n : Reg Config.hw) (w : Count Config.hw) (c : Response Config.hw),
    s.P = some p → s.S = some n → s.W = some w → s.resp = some c →
    ∃ q : Reg Config.hw, q.toNat = (p.toNat + n.toNat) % 2 ^ w.toNat ∧
      exec .boothAddS s = .next { s with P := some q, resp := some (c.addRecord .pPlusS q) }

/-- R104: the accumulator's result is the unsigned sum modulo `2^W` and the two's-complement sum in W bits; PHASE and ERR
record nothing of the carry or of a signed overflow. -/
def Obligations.AdditionWrapsWithoutTrace : Prop :=
  ∀ (s : State) (r : RunRegs Config.hw), s.holds r → r.legal →
    (∃ (t : State) (q : Reg Config.hw), exec .boothAddA s = .next t ∧ t.P = some q ∧ t.phase = s.phase ∧ t.err = s.err ∧
      q.toNat = (r.P.toNat + r.A.toNat) % 2 ^ r.W.toNat ∧
      (signedOf q.toNat r.W.toNat - (signedOf r.P.toNat r.W.toNat + signedOf r.A.toNat r.W.toNat)) % 2 ^ r.W.toNat = 0) ∧
    (∃ (t : State) (q : Reg Config.hw), exec .boothAddS s = .next t ∧ t.P = some q ∧ t.phase = s.phase ∧ t.err = s.err ∧
      q.toNat = (r.P.toNat + r.S.toNat) % 2 ^ r.W.toNat ∧
      (signedOf q.toNat r.W.toNat - (signedOf r.P.toNat r.W.toNat + signedOf r.S.toNat r.W.toNat)) % 2 ^ r.W.toNat = 0)

/-- R106: an addition leaves `P[hb-1:0]`, the pair among them, and adds in the upper window modulo `2^pb`. -/
def Obligations.AdditionKeepsLowerWindow : Prop :=
  ∀ (s : State) (r : RunRegs Config.hw), s.holds r → r.legal →
    (∃ (t : State) (q : Reg Config.hw), exec .boothAddA s = .next t ∧ t.P = some q ∧
      q.toNat % 2 ^ r.hb.toNat = r.P.toNat % 2 ^ r.hb.toNat ∧ pairOf q = pairOf r.P ∧
      q.toNat / 2 ^ r.hb.toNat =
        (r.P.toNat / 2 ^ r.hb.toNat + r.A.toNat / 2 ^ r.hb.toNat) % 2 ^ r.pb.toNat) ∧
    (∃ (t : State) (q : Reg Config.hw), exec .boothAddS s = .next t ∧ t.P = some q ∧
      q.toNat % 2 ^ r.hb.toNat = r.P.toNat % 2 ^ r.hb.toNat ∧ pairOf q = pairOf r.P ∧
      q.toNat / 2 ^ r.hb.toNat =
        (r.P.toNat / 2 ^ r.hb.toNat + r.S.toNat / 2 ^ r.hb.toNat) % 2 ^ r.pb.toNat)

/-- R36: a meaning that would read a register holding ⊥ stops and picks no value: each register that a row reads, and a stop is
always of a register that holds ⊥. From the invariant of R34 no input makes the block read one. -/
def Obligations.UndefinedRegisterIsNeverRead : Prop :=
  (∀ s : State, s.P = none ∨ s.A = none ∨ s.W = none → FaultsOnUndefined s (exec .boothAddA s)) ∧
  (∀ s : State, s.P = none ∨ s.S = none ∨ s.W = none → FaultsOnUndefined s (exec .boothAddS s)) ∧
  (∀ s : State, s.P = none ∨ s.W = none → FaultsOnUndefined s (exec .asr s)) ∧
  (∀ s : State, s.phase = .run → s.P = none ∨ s.W = none ∨ s.rem = none → FaultsOnUndefined s (exec .step s)) ∧
  (∀ (s : State) (p : Reg Config.hw), s.phase = .run → s.P = some p →
    p.toNat % 4 = 1 ∧ s.A = none ∨ p.toNat % 4 = 2 ∧ s.S = none ∨ s.rem = some 1 ∧ s.pb = none →
    FaultsOnUndefined s (exec .step s)) ∧
  (∀ s : State, s.phase = .run ∨ s.phase = .done →
    s.rem = none ∨ s.pb = none ∨ s.A = none ∨ s.S = none ∨ s.P = none → FaultsOnUndefined s (exec .query s)) ∧
  (∀ (i : Instr) (s : State) (f : Fault), exec i s = .fault f → FaultsOnUndefined s (exec i s)) ∧
  (∀ s : State, s.Inv → ∃ t, step s = .next t)

/-! ### The shifter -/

/-- R110: ASR shifts P right by one within W bits, replicating the sign, so that its two's-complement value is halved and
floored; it emits `>>1 P`, and nothing else changes. In a STEP it is the last record. -/
def Obligations.ShiftResult : Prop :=
  (∀ (s : State) (p : Reg Config.hw) (w : Count Config.hw) (c : Response Config.hw), s.P = some p → s.W = some w →
    s.resp = some c → 1 ≤ w.toNat → p.toNat < 2 ^ w.toNat →
    ∃ q : Reg Config.hw, q.toNat = p.toNat / 2 + bitAt p.toNat (w.toNat - 1) * 2 ^ (w.toNat - 1) ∧
      signedOf q.toNat w.toNat = signedOf p.toNat w.toNat / 2 ∧
      exec .asr s = .next { s with P := some q, resp := some (c.addRecord .shiftP q) }) ∧
  (∀ (s : State) (r : RunRegs Config.hw), s.phase = .run → s.holds r → r.legal →
    ∃ (t : State) (q : Reg Config.hw) (resp : Response Config.hw), exec .step s = .next t ∧ t.P = some q ∧
      t.resp = some resp ∧
      resp.recs.getLast? = some ⟨.shiftP, q⟩)

/-- R111: the source's procedure, a plain right shift and then the flip of bit `W-1` when it differs from bit `W-2`, gives
the shift, over storage of any width, for a logical plain shift and for an arithmetic one. -/
def Obligations.SourceShiftProcedure : Prop :=
  ∀ (k w : Nat) (v : BitVec k), 2 ≤ w → w ≤ k → v.toNat < 2 ^ w →
    signFix (v >>> 1) w = asr v w ∧ signFix (v.sshiftRight 1) w = asr v w

/-- R112, R113: over storage of any width `k`, for every W-bit P the shift sets no bit at or above W, equals the arithmetic shift
of a true W-bit register, and its bit 0 is the old bit 1. -/
def Obligations.ShiftMatchesTrueRegister : Prop :=
  ∀ (k w : Nat) (v : BitVec k), 2 ≤ w → w ≤ k → v.toNat < 2 ^ w →
    (asr v w).toNat < 2 ^ w ∧ (asr v w).toNat = ((BitVec.ofNat w v.toNat).sshiftRight 1).toNat ∧
    (asr v w).toNat % 2 = bitAt v.toNat 1

/-- R114: the corner cases of the shift. -/
def Obligations.ShiftCornerCases : Prop :=
  asr (0b00000#63) 5 = 0b00000 ∧ asr (0b00001#63) 5 = 0b00000 ∧ asr (0b11111#63) 5 = 0b11111 ∧
  asr (0b10000#63) 5 = 0b11000 ∧ asr (0b01111#63) 5 = 0b00111 ∧ asr (0b10001#63) 5 = 0b11000 ∧
  asr (0x4000000000000000#63) 63 = 0x6000000000000000 ∧ asr (0x3fffffffffffffff#63) 63 = 0x1fffffffffffffff ∧
  (asr (0x4000000000000000#64) 63) = 0x6000000000000000

/-! ### STEP -/

/-- R100: an accepted STEP reads the pair from the P it finds and performs exactly the row the pair decodes to, then the
shift, then the count. -/
def Obligations.StepDispatchesOnPair : Prop :=
  ∀ (s : State) (p : Reg Config.hw), s.phase = .run → s.P = some p →
    exec .step s =
      andThen (exec (decodePair (p.extractLsb' 0 2)) { s with resp := some (Response.bare .ok) }) fun s1 =>
        andThen (exec .asr s1) finishStep

/-- R120, R122: a STEP in every phase: the whole next state. In RUN it is one iteration; elsewhere it is rejected. -/
def Obligations.StepResult : Prop :=
  (∀ (s : State) (r : RunRegs Config.hw), s.phase = .run → s.holds r → r.legal → 1 ≤ r.rem.toNat →
    ∃ (q : Reg Config.hw) (rem : Count Config.hw), q.toNat = shiftOf (sumOf r) r.W.toNat ∧ rem.toNat + 1 = r.rem.toNat ∧
      exec .step s = .next
        { s with P := some q, rem := some rem, phase := if rem = 0 then .done else .run,
                 resp := some { status := .ok, recs := recordsOf r,
                                product := if rem = 0 then some (BitVec.ofNat _ (slice q.toNat r.pb.toNat 1)) else none,
                                stat := none, regs := none } }) ∧
  (∀ s : State, s.phase ≠ .run → exec .step s = .next { s with resp := some (Response.bare .rejected) })

/-- R121: a STEP in IDLE, DONE or FATAL is rejected, changes no state and emits no record. -/
def Obligations.StepRejectedOutsideRun : Prop :=
  ∀ s : State, s.phase ≠ .run → exec .step s = .next { s with resp := some (Response.bare .rejected) }

/-- R123: the STEP that makes rem 0 sets DONE in the same transaction, and the run's registers then hold until a LOAD or
reset: no other command changes the block. -/
def Obligations.DoneHoldsUntilLoadOrReset : Prop :=
  (∀ (s : State) (r : RunRegs Config.hw), s.phase = .run → s.holds r → r.legal → r.rem = 1 →
    ∃ t, exec .step s = .next t ∧ t.phase = .done ∧ t.rem = some 0) ∧
  (∀ (s t : State) (w : CommandWord Config.hw), s.phase = .done → w.toNat % 4 ≠ 1 →
    exec (decodeCmd Config.hw w) s = .next t → SameBlock s t)

/-- R184: no row but LOAD writes A or S (nor the geometry), and a LOAD starts a new run, or leaves none. -/
def Obligations.OnlyLoadWritesAddends : Prop :=
  (∀ (i : Instr) (s t : State), (∀ m n mv rv, i ≠ .load m n mv rv) → exec i s = .next t →
    t.A = s.A ∧ t.S = s.S ∧ t.pb = s.pb ∧ t.W = s.W ∧ t.hb = s.hb) ∧
  (∀ (s : State) (m n mv rv : Nat), s.phase ≠ .fatal →
    ∃ t, exec (.load m n mv rv) s = .next t ∧
      (t.phase = .run ∧ t.rem = t.pb ∧ t.pb ≠ none ∨ t.phase = .idle ∧ t.void))

/-- R21: of the rows only LOAD and STEP change PHASE. -/
def Obligations.OnlyLoadAndStepChangePhase : Prop :=
  ∀ (i : Instr) (s t : State), exec i s = .next t → t.phase ≠ s.phase →
    i = .step ∨ ∃ m n mv rv, i = .load m n mv rv

/-- R29: a LOAD outside FATAL puts its status in ERR, no other command writes it, a rejected command does not write it, reset
clears it, and under the invariant it never holds REJECTED. -/
def Obligations.ErrHoldsLastLoadStatus : Prop :=
  (∀ (s t : State) (m n mv rv : Nat), s.phase ≠ .fatal → exec (.load m n mv rv) s = .next t →
    ∃ r, t.resp = some r ∧ t.err = r.status ∧ (t.err = .ok ∨ t.err = .invalidOperand ∨ t.err = .widthOverflow)) ∧
  (∀ (i : Instr) (s t : State), (∀ m n mv rv, i ≠ .load m n mv rv) → exec i s = .next t → t.err = s.err) ∧
  (∀ (s t : State) (m n mv rv : Nat), s.phase = .fatal → exec (.load m n mv rv) s = .next t →
    t.err = s.err) ∧
  State.reset.err = .ok ∧ (∀ s : State, s.enterFatal.err = .internalInvariant) ∧
  (∀ s : State, s.Inv → s.err.code.toNat < 4)

/-- R164: no input takes the block into FATAL. What a fitted detector would do is `enterFatal`; in FATAL only QUERY is
accepted. -/
def Obligations.FatalIsNeverEntered : Prop :=
  (∀ s t : State, step s = .next t → t.phase = .fatal → s.phase = .fatal) ∧
  (∀ s : State, s.enterFatal =
    { phase := .fatal, err := .internalInvariant, pb := none, W := none, hb := none, A := none, S := none, P := none,
      rem := none, resp := some (Response.bare .internalInvariant), inputs := s.inputs }) ∧
  (∀ (s : State) (w : CommandWord Config.hw), s.phase = .fatal →
    ∃ t r, exec (decodeCmd Config.hw w) s = .next t ∧ SameBlock s t ∧ t.resp = some r ∧
      r.status = if w.toNat % 4 = 0 then .ok else .rejected)

/-! ### QUERY and the reserved code -/

/-- R128, with the numbers of R21 and R67: QUERY in every phase: the whole next state, in which only the response port
changes. -/
def Obligations.QueryResult : Prop :=
  (Phase.idle.code = 0 ∧ Phase.run.code = 1 ∧ Phase.done.code = 2 ∧ Phase.fatal.code = 3) ∧
  (Status.ok.code = 0 ∧ Status.invalidOperand.code = 1 ∧ Status.widthOverflow.code = 2 ∧
    Status.internalInvariant.code = 3 ∧ Status.rejected.code = 4) ∧
  (∀ (s : State) (r : RunRegs Config.hw), s.phase = .run ∨ s.phase = .done → s.holds r → r.legal →
    ∃ st : StatusWord Config.hw,
      st.toNat = s.phase.code.toNat + 2 ^ 2 * s.err.code.toNat + 2 ^ 5 * r.rem.toNat + 2 ^ 11 * r.pb.toNat ∧
      exec .query s = .next
        { s with resp := some { status := .ok, recs := [], stat := some st,
                                regs := some { qa := r.A, qs := r.S, qp := r.P },
                                product := if s.phase = .done then some (BitVec.ofNat _ (slice r.P.toNat r.pb.toNat 1))
                                  else none } }) ∧
  (∀ s : State, s.phase = .idle ∨ s.phase = .fatal →
    ∃ st : StatusWord Config.hw, st.toNat = s.phase.code.toNat + 2 ^ 2 * s.err.code.toNat ∧
      exec .query s = .next
        { s with resp := some { status := .ok, recs := [], stat := some st, regs := none, product := none } })

/-- R54: QUERY changes nothing and a second QUERY returns the same response; two LOADs with the same operands leave equal
blocks, so the same commands after them give the same responses. -/
def Obligations.QueryIsIdempotent : Prop :=
  (∀ s t : State, exec .query s = .next t → SameBlock s t ∧ exec .query t = .next t) ∧
  (∀ (s s' : State) (m n mv rv : Nat) (l : List Instr), s.phase ≠ .fatal → s'.phase ≠ .fatal →
    s.inputs = s'.inputs →
    l.foldl (fun o i => andThen o (exec i)) (exec (.load m n mv rv) s) =
      l.foldl (fun o i => andThen o (exec i)) (exec (.load m n mv rv) s'))

/-- R65: a word with op 0b11 is rejected with no state change, whatever its other bits and however often it is sent. -/
def Obligations.ReservedCodeRejected : Prop :=
  (∀ w : CommandWord Config.hw, w.toNat % 4 = 3 → decodeCmd Config.hw w = .reserved) ∧
  (∀ s : State, exec .reserved s = .next { s with resp := some (Response.bare .rejected) })

/-! ### Responses and errors -/

/-- R165: REJECTED is returned exactly for STEP outside RUN, LOAD in FATAL and the reserved code, and changes no state; QUERY
is never rejected. -/
def Obligations.RejectionsChangeNothing : Prop :=
  ∀ (i : Instr) (s t : State), i.isCommand = true → exec i s = .next t →
    ∃ r, t.resp = some r ∧
      (r.status = .rejected ↔
        i = .reserved ∨ (i = .step ∧ s.phase ≠ .run) ∨ ((∃ m n mv rv, i = .load m n mv rv) ∧ s.phase = .fatal)) ∧
      (r.status = .rejected → SameBlock s t)

/-- R163: an error returns no record and no product. INVALID_OPERAND and WIDTH_OVERFLOW leave IDLE, the code and ⊥
everywhere; REJECTED changes nothing; INTERNAL_INVARIANT is never returned (R164). -/
def Obligations.ErrorEffects : Prop :=
  ∀ (i : Instr) (s t : State) (r : Response Config.hw), i.isCommand = true → exec i s = .next t →
    t.resp = some r → r.status ≠ .ok →
    r.recs = [] ∧ r.product = none ∧ r.status ≠ .internalInvariant ∧
    (r.status = .rejected → SameBlock s t) ∧
    (r.status = .invalidOperand ∨ r.status = .widthOverflow → t.phase = .idle ∧ t.err = r.status ∧ t.void)

/-- R126: the records of each command: 3 for an accepted LOAD, 2 for a STEP whose pair is 0b01 or 0b10 (the addition first),
else 1; none for QUERY and for a rejected or failed command. -/
def Obligations.RecordsPerCommand : Prop :=
  ∀ (i : Instr) (s t : State) (r : Response Config.hw), i.isCommand = true → exec i s = .next t → t.resp = some r →
    r.recs.map (·.label) =
      match i with
      | .load _ _ _ _ => if r.status = .ok then [Label.a, .s, .p] else []
      | .step =>
        if r.status = .ok then
          match s.P.map pairOf with
          | some 0b01#2 => [.pPlusA, .shiftP]
          | some 0b10#2 => [.pPlusS, .shiftP]
          | _ => [.shiftP]
        else []
      | _ => []

/-- R127: the product is carried by the STEP that enters DONE and by every QUERY in DONE, it is `P[pb:1]`, and no other
response carries it. -/
def Obligations.ProductOnlyInDone : Prop :=
  ∀ (i : Instr) (s t : State) (r : Response Config.hw), i.isCommand = true → exec i s = .next t → t.resp = some r →
    (r.product.isSome = true ↔ t.phase = .done ∧ ((i = .step ∧ s.phase = .run) ∨ i = .query)) ∧
    (∀ v, r.product = some v → ∃ p pb, t.P = some p ∧ t.pb = some pb ∧
      v = BitVec.ofNat _ (p.toNat / 2 % 2 ^ pb.toNat))

/-- R66, with the numbers of R67 and R68: on the port of a block of any WMAX the status is its code and `nrec` counts the
records; a valid bit is 1 exactly where the response has the field, and the field is then its value and otherwise 0; record slot
`i` holds the `i`-th record's label code and value, and from `nrec` on label 0 and value 0. -/
def Obligations.InvalidPortFieldsAreZero : Prop :=
  (Status.ok.code = 0 ∧ Status.invalidOperand.code = 1 ∧ Status.widthOverflow.code = 2 ∧
    Status.internalInvariant.code = 3 ∧ Status.rejected.code = 4) ∧
  (Label.a.code = 0 ∧ Label.s.code = 1 ∧ Label.p.code = 2 ∧ Label.pPlusA.code = 3 ∧ Label.pPlusS.code = 4 ∧
    Label.shiftP.code = 5) ∧
  ∀ (c : Params) (r : Response c), r.recs.length ≤ 3 →
    r.toPort.status = r.status.code ∧ r.toPort.nrec.toNat = r.recs.length ∧
    (∀ x, r.recs[0]? = some x → r.toPort.rec0 = ⟨x.label.code, x.value⟩) ∧
    (∀ x, r.recs[1]? = some x → r.toPort.rec1 = ⟨x.label.code, x.value⟩) ∧
    (∀ x, r.recs[2]? = some x → r.toPort.rec2 = ⟨x.label.code, x.value⟩) ∧
    (r.toPort.nrec.toNat < 1 → r.toPort.rec0 = ⟨0, 0⟩) ∧ (r.toPort.nrec.toNat < 2 → r.toPort.rec1 = ⟨0, 0⟩) ∧
    (r.toPort.nrec.toNat < 3 → r.toPort.rec2 = ⟨0, 0⟩) ∧
    (r.product = none → r.toPort.pvalid = 0 ∧ r.toPort.product = 0) ∧
    (r.stat = none → r.toPort.qvalid = 0 ∧ r.toPort.stat = 0) ∧
    (r.regs = none → r.toPort.rvalid = 0 ∧ r.toPort.qa = 0 ∧ r.toPort.qs = 0 ∧ r.toPort.qp = 0) ∧
    (∀ v, r.product = some v → r.toPort.pvalid = 1 ∧ r.toPort.product = v) ∧
    (∀ v, r.stat = some v → r.toPort.qvalid = 1 ∧ r.toPort.stat = v) ∧
    (∀ q, r.regs = some q → r.toPort.rvalid = 1 ∧ r.toPort.qa = q.qa ∧ r.toPort.qs = q.qs ∧ r.toPort.qp = q.qp)

/-! ### Invariants -/

/-- The reset state meets the invariant. -/
def Obligations.InvariantAtReset : Prop := State.reset.Inv

/-- R34, with R22, R26, R27 and R29: every step keeps the invariant, whatever the input. -/
def Obligations.InvariantKeptByStep : Prop := ∀ s t : State, s.Inv → step s = .next t → t.Inv

/-- R34: in every state reachable from reset, by any inputs, the registers match the phase. -/
def Obligations.ReachableRegistersMatchPhase : Prop :=
  ∀ (l : List (Input Config.hw)) (k : Nat) (t : State), Sys2Proof.core.run k { State.reset with inputs := l } = .next t →
    t.runFits

/-- R51 with R36: under the invariant every command completes and returns a response that the port can carry. -/
def Obligations.EveryCommandAnswers : Prop :=
  ∀ (s : State) (w : CommandWord Config.hw), s.Inv →
    ∃ t r, exec (decodeCmd Config.hw w) s = .next t ∧ t.resp = some r ∧ respFits r = true ∧
      (r.stat.isSome = true ↔ w.toNat % 4 = 0)

/-! ### Laws of a run, at every WMAX -/

/-- R124: a run takes exactly `m + n` accepted STEPs from LOAD to DONE, whatever the operand values, in both modes. -/
def Obligations.RunTakesExactlyPbSteps : Prop :=
  ∀ (c : Params) (s : State.At c) (m n mv rv : Nat), c.legal → s.phase ≠ .fatal → ValidOperands m n mv rv →
    m + n ≤ c.pbMax → ∀ k : Nat, k ≤ m + n →
    ∃ (t : State.At c) (rem : Count c), runFor m n mv rv k s = .next t ∧ t.rem = some rem ∧ rem.toNat = m + n - k ∧
      t.phase = if k = m + n then .done else .run

/-- R130 item 1: before iteration k the pair is the multiplier bits k and k-1, in both modes. -/
def Obligations.StepSeesMultiplierBits : Prop :=
  ∀ (c : Params) (s : State.At c) (m n mv rv : Nat), c.legal → s.phase ≠ .fatal → ValidOperands m n mv rv →
    m + n ≤ c.pbMax → ∀ k : Nat, k < m + n →
    ∃ (t : State.At c) (p : Reg c), runFor m n mv rv k s = .next t ∧ t.P = some p ∧
      p.toNat % 4 = 2 * bitAt rv k + prevBit rv k

/-- R130 items 2 and 3: iteration k emits an addition record exactly where the multiplier bit changes, `P+A` on 0 after 1
and `P+S` on 1 after 0, so that a run emits `3 + pb + a` records, in both modes. -/
def Obligations.RunRecordCount : Prop :=
  ∀ (c : Params) (s : State.At c) (m n mv rv : Nat), c.legal → s.phase ≠ .fatal → ValidOperands m n mv rv →
    m + n ≤ c.pbMax →
    ∃ (t : State.At c) (first : Response c) (rs : List (Response c)),
      issueRun m n mv rv s = some (t, first :: rs) ∧ rs.length = m + n ∧
      ((first :: rs).flatMap (·.recs)).length = 3 + (m + n) + changes rv (m + n) ∧
      ∀ k (h : k < rs.length), (rs[k].recs).map (·.label) =
        if bitAt rv k = 0 ∧ prevBit rv k = 1 then [Label.pPlusA, .shiftP]
        else if bitAt rv k = 1 ∧ prevBit rv k = 0 then [.pPlusS, .shiftP]
        else [.shiftP]

/-- R107: under WINDOW no addition of a run overflows the W-bit signed range: the signed value after it is the exact sum, and
the upper window's magnitude is at most the multiplicand after every addition and every shift. -/
def Obligations.WindowNeverOverflows : Prop :=
  ∀ (c : Params) (s : State.At c) (m n mv rv : Nat), c.legal → c.negMode = .window → s.phase ≠ .fatal →
    ValidOperands m n mv rv → m + n ≤ c.pbMax → ∀ k : Nat, k ≤ m + n →
    ∃ (t : State.At c) (r : RunRegs c), runFor m n mv rv k s = .next t ∧ t.holds r ∧ r.legal ∧
      (upperWindow r.P.toNat r.pb.toNat).natAbs ≤ mv ∧
      (k < m + n →
        signedOf (sumOf r) r.W.toNat = signedOf r.P.toNat r.W.toNat + signedOf (addendOf r) r.W.toNat ∧
        (upperWindow (sumOf r) r.pb.toNat).natAbs ≤ mv)

/-- R131: under WINDOW, this hardware's mode, the DONE state has `P = (m_val · r_val) << 1`, and the product delivered is
`m_val · r_val`. -/
def Obligations.WindowRunMultiplies : Prop :=
  Config.hw.legal ∧ Config.hw.negMode = .window ∧
  ∀ (c : Params) (s : State.At c) (m n mv rv : Nat), c.legal → c.negMode = .window → s.phase ≠ .fatal →
    ValidOperands m n mv rv → m + n ≤ c.pbMax →
    ∃ (t : State.At c) (p : Reg c) (r : Response c) (v : Value c),
      runFor m n mv rv (m + n) s = .next t ∧ t.phase = .done ∧ t.P = some p ∧ p.toNat = 2 * (mv * rv) ∧
      t.resp = some r ∧ r.product = some v ∧ v.toNat = mv * rv ∧ mv * rv < 2 ^ (m + n)

/-- R132: under OPERAND the DONE state in closed form, and the product is wrong whenever neither operand is 0. -/
def Obligations.OperandRunClosedForm : Prop :=
  ∀ (c : Params) (s : State.At c) (m n mv rv : Nat), c.legal → c.negMode = .operand → s.phase ≠ .fatal →
    ValidOperands m n mv rv → m + n ≤ c.pbMax →
    ∃ (t : State.At c) (p : Reg c) (r : Response c) (v : Value c),
      runFor m n mv rv (m + n) s = .next t ∧ t.phase = .done ∧ t.P = some p ∧
      t.resp = some r ∧ r.product = some v ∧ p.toNat % 2 = 0 ∧ (mv = 0 → p = 0) ∧
      (mv ≠ 0 → slice p.toNat (2 * (m + n)) 1 = (mv * rv + 2 ^ m * startsSum rv (m + n)) % 2 ^ (2 * (m + n))) ∧
      (mv ≠ 0 → rv ≠ 0 → v.toNat ≠ mv * rv)

/-! ### The host's procedures -/

/-- R141, R143: parse fails on an empty string and on any character outside 0 and 1; else its bit length is the string's
length, leading zeros counted, and its value is the most-significant-first binary number. -/
def Obligations.ParseReadsBinaryText : Prop :=
  ∀ s : List Char,
    ((s = [] ∨ ∃ c ∈ s, c ≠ '0' ∧ c ≠ '1') → parse s = .error .invalidOperand) ∧
    (s ≠ [] → (∀ c ∈ s, c = '0' ∨ c = '1') →
      parse s = .ok (((List.range s.length).map fun i =>
        (if s[i]? = some '1' then 1 else 0) * 2 ^ (s.length - 1 - i)).sum, s.length))

/-- R146: formatting a register, removing the two spaces and parsing gives the masked register and its width. -/
def Obligations.FormatThenParse : Prop :=
  ∀ v pb : Nat, parse ((format v pb).filter (· ≠ ' ')) = .ok (mask v (2 * pb + 1), 2 * pb + 1) ∧
    (format v pb).length = 2 * pb + 3

/-- R140 with R131: on a block with NEG_MODE = WINDOW that is not in FATAL, `multiply` of two binary strings of legal widths
returns a trace that ends in their product, with `3 + pb + a` records. -/
def Obligations.HostMultiplyIsCorrect : Prop :=
  ∀ (c : Params) (s : State.At c) (mbits rbits : List Char) (a b m n : Nat), c.legal → c.negMode = .window →
    s.phase ≠ .fatal → parse mbits = .ok (a, m) → parse rbits = .ok (b, n) → m + n ≤ c.pbMax →
    ∃ (t : State.At c) (tr : MultiplicationTrace c), multiply mbits rbits s = (t, .ok tr) ∧ tr.product.toNat = a * b ∧
      tr.recs.length = 3 + (m + n) + changes b (m + n) ∧ t.phase = .done

/-- R144: where both strings parse and one is longer than `PB_MAX`, the host raises the width error itself and the block is
not changed; the block would have answered that error, for the widths sum to more than `PB_MAX`. -/
def Obligations.HostWidthCheckSendsNothing : Prop :=
  ∀ (c : Params) (s : State.At c) (mbits rbits : List Char) (a b m n : Nat),
    parse mbits = .ok (a, m) → parse rbits = .ok (b, n) → c.pbMax < m ∨ c.pbMax < n →
    multiply mbits rbits s = (s, .error .registerWidthOverflow) ∧ c.pbMax < m + n

/-- R72: at every WMAX a LOAD line of strings that fit is one word, and that word decodes to the strings' lengths and
values. -/
def Obligations.AssembledLoadDecodes : Prop :=
  ∀ (c : Params) (mbits rbits : List Bool), mbits.length ≤ c.pbMax → rbits.length ≤ c.pbMax →
    ∃ w : CommandWord c, assemble c (.load mbits rbits) = some [w] ∧
      decodeCmd c w = .load mbits.length rbits.length (bitsValue mbits) (bitsValue rbits)
end

