-- ==== Sys2Proof/Laws/State.lean ====
section
/-! SUPPORT. What each field of State holds after each named update: one lemma per field per update, true by rfl, so that
no later proof unfolds a record update. -/

namespace Sys2Proof.Machine
open Sys2Proof

variable {c : Params}

@[simp] theorem State.At.setPhase_phase (s : State.At c) (p : Phase) : (s.setPhase p).phase = p := rfl
@[simp] theorem State.At.setPhase_err (s : State.At c) (p : Phase) : (s.setPhase p).err = s.err := rfl
@[simp] theorem State.At.setPhase_pb (s : State.At c) (p : Phase) : (s.setPhase p).pb = s.pb := rfl
@[simp] theorem State.At.setPhase_W (s : State.At c) (p : Phase) : (s.setPhase p).W = s.W := rfl
@[simp] theorem State.At.setPhase_hb (s : State.At c) (p : Phase) : (s.setPhase p).hb = s.hb := rfl
@[simp] theorem State.At.setPhase_A (s : State.At c) (p : Phase) : (s.setPhase p).A = s.A := rfl
@[simp] theorem State.At.setPhase_S (s : State.At c) (p : Phase) : (s.setPhase p).S = s.S := rfl
@[simp] theorem State.At.setPhase_P (s : State.At c) (p : Phase) : (s.setPhase p).P = s.P := rfl
@[simp] theorem State.At.setPhase_rem (s : State.At c) (p : Phase) : (s.setPhase p).rem = s.rem := rfl
@[simp] theorem State.At.setPhase_resp (s : State.At c) (p : Phase) : (s.setPhase p).resp = s.resp := rfl
@[simp] theorem State.At.setPhase_inputs (s : State.At c) (p : Phase) : (s.setPhase p).inputs = s.inputs := rfl

@[simp] theorem State.At.setErr_phase (s : State.At c) (e : Status) : (s.setErr e).phase = s.phase := rfl
@[simp] theorem State.At.setErr_err (s : State.At c) (e : Status) : (s.setErr e).err = e := rfl
@[simp] theorem State.At.setErr_pb (s : State.At c) (e : Status) : (s.setErr e).pb = s.pb := rfl
@[simp] theorem State.At.setErr_W (s : State.At c) (e : Status) : (s.setErr e).W = s.W := rfl
@[simp] theorem State.At.setErr_hb (s : State.At c) (e : Status) : (s.setErr e).hb = s.hb := rfl
@[simp] theorem State.At.setErr_A (s : State.At c) (e : Status) : (s.setErr e).A = s.A := rfl
@[simp] theorem State.At.setErr_S (s : State.At c) (e : Status) : (s.setErr e).S = s.S := rfl
@[simp] theorem State.At.setErr_P (s : State.At c) (e : Status) : (s.setErr e).P = s.P := rfl
@[simp] theorem State.At.setErr_rem (s : State.At c) (e : Status) : (s.setErr e).rem = s.rem := rfl
@[simp] theorem State.At.setErr_resp (s : State.At c) (e : Status) : (s.setErr e).resp = s.resp := rfl
@[simp] theorem State.At.setErr_inputs (s : State.At c) (e : Status) : (s.setErr e).inputs = s.inputs := rfl

@[simp] theorem State.At.setGeometry_phase (s : State.At c) (g : Geometry) : (s.setGeometry g).phase = s.phase := rfl
@[simp] theorem State.At.setGeometry_err (s : State.At c) (g : Geometry) : (s.setGeometry g).err = s.err := rfl
@[simp] theorem State.At.setGeometry_pb (s : State.At c) (g : Geometry) : (s.setGeometry g).pb = some (toCount g.pb) := rfl
@[simp] theorem State.At.setGeometry_W (s : State.At c) (g : Geometry) : (s.setGeometry g).W = some (toCount g.W) := rfl
@[simp] theorem State.At.setGeometry_hb (s : State.At c) (g : Geometry) : (s.setGeometry g).hb = some (toCount g.hb) := rfl
@[simp] theorem State.At.setGeometry_A (s : State.At c) (g : Geometry) : (s.setGeometry g).A = s.A := rfl
@[simp] theorem State.At.setGeometry_S (s : State.At c) (g : Geometry) : (s.setGeometry g).S = s.S := rfl
@[simp] theorem State.At.setGeometry_P (s : State.At c) (g : Geometry) : (s.setGeometry g).P = s.P := rfl
@[simp] theorem State.At.setGeometry_rem (s : State.At c) (g : Geometry) : (s.setGeometry g).rem = s.rem := rfl
@[simp] theorem State.At.setGeometry_resp (s : State.At c) (g : Geometry) : (s.setGeometry g).resp = s.resp := rfl
@[simp] theorem State.At.setGeometry_inputs (s : State.At c) (g : Geometry) : (s.setGeometry g).inputs = s.inputs := rfl

@[simp] theorem State.At.setA_phase (s : State.At c) (v : Reg c) : (s.setA v).phase = s.phase := rfl
@[simp] theorem State.At.setA_err (s : State.At c) (v : Reg c) : (s.setA v).err = s.err := rfl
@[simp] theorem State.At.setA_pb (s : State.At c) (v : Reg c) : (s.setA v).pb = s.pb := rfl
@[simp] theorem State.At.setA_W (s : State.At c) (v : Reg c) : (s.setA v).W = s.W := rfl
@[simp] theorem State.At.setA_hb (s : State.At c) (v : Reg c) : (s.setA v).hb = s.hb := rfl
@[simp] theorem State.At.setA_A (s : State.At c) (v : Reg c) : (s.setA v).A = some v := rfl
@[simp] theorem State.At.setA_S (s : State.At c) (v : Reg c) : (s.setA v).S = s.S := rfl
@[simp] theorem State.At.setA_P (s : State.At c) (v : Reg c) : (s.setA v).P = s.P := rfl
@[simp] theorem State.At.setA_rem (s : State.At c) (v : Reg c) : (s.setA v).rem = s.rem := rfl
@[simp] theorem State.At.setA_resp (s : State.At c) (v : Reg c) : (s.setA v).resp = s.resp := rfl
@[simp] theorem State.At.setA_inputs (s : State.At c) (v : Reg c) : (s.setA v).inputs = s.inputs := rfl

@[simp] theorem State.At.setS_phase (s : State.At c) (v : Reg c) : (s.setS v).phase = s.phase := rfl
@[simp] theorem State.At.setS_err (s : State.At c) (v : Reg c) : (s.setS v).err = s.err := rfl
@[simp] theorem State.At.setS_pb (s : State.At c) (v : Reg c) : (s.setS v).pb = s.pb := rfl
@[simp] theorem State.At.setS_W (s : State.At c) (v : Reg c) : (s.setS v).W = s.W := rfl
@[simp] theorem State.At.setS_hb (s : State.At c) (v : Reg c) : (s.setS v).hb = s.hb := rfl
@[simp] theorem State.At.setS_A (s : State.At c) (v : Reg c) : (s.setS v).A = s.A := rfl
@[simp] theorem State.At.setS_S (s : State.At c) (v : Reg c) : (s.setS v).S = some v := rfl
@[simp] theorem State.At.setS_P (s : State.At c) (v : Reg c) : (s.setS v).P = s.P := rfl
@[simp] theorem State.At.setS_rem (s : State.At c) (v : Reg c) : (s.setS v).rem = s.rem := rfl
@[simp] theorem State.At.setS_resp (s : State.At c) (v : Reg c) : (s.setS v).resp = s.resp := rfl
@[simp] theorem State.At.setS_inputs (s : State.At c) (v : Reg c) : (s.setS v).inputs = s.inputs := rfl

@[simp] theorem State.At.setP_phase (s : State.At c) (v : Reg c) : (s.setP v).phase = s.phase := rfl
@[simp] theorem State.At.setP_err (s : State.At c) (v : Reg c) : (s.setP v).err = s.err := rfl
@[simp] theorem State.At.setP_pb (s : State.At c) (v : Reg c) : (s.setP v).pb = s.pb := rfl
@[simp] theorem State.At.setP_W (s : State.At c) (v : Reg c) : (s.setP v).W = s.W := rfl
@[simp] theorem State.At.setP_hb (s : State.At c) (v : Reg c) : (s.setP v).hb = s.hb := rfl
@[simp] theorem State.At.setP_A (s : State.At c) (v : Reg c) : (s.setP v).A = s.A := rfl
@[simp] theorem State.At.setP_S (s : State.At c) (v : Reg c) : (s.setP v).S = s.S := rfl
@[simp] theorem State.At.setP_P (s : State.At c) (v : Reg c) : (s.setP v).P = some v := rfl
@[simp] theorem State.At.setP_rem (s : State.At c) (v : Reg c) : (s.setP v).rem = s.rem := rfl
@[simp] theorem State.At.setP_resp (s : State.At c) (v : Reg c) : (s.setP v).resp = s.resp := rfl
@[simp] theorem State.At.setP_inputs (s : State.At c) (v : Reg c) : (s.setP v).inputs = s.inputs := rfl

@[simp] theorem State.At.setRem_phase (s : State.At c) (v : Count c) : (s.setRem v).phase = s.phase := rfl
@[simp] theorem State.At.setRem_err (s : State.At c) (v : Count c) : (s.setRem v).err = s.err := rfl
@[simp] theorem State.At.setRem_pb (s : State.At c) (v : Count c) : (s.setRem v).pb = s.pb := rfl
@[simp] theorem State.At.setRem_W (s : State.At c) (v : Count c) : (s.setRem v).W = s.W := rfl
@[simp] theorem State.At.setRem_hb (s : State.At c) (v : Count c) : (s.setRem v).hb = s.hb := rfl
@[simp] theorem State.At.setRem_A (s : State.At c) (v : Count c) : (s.setRem v).A = s.A := rfl
@[simp] theorem State.At.setRem_S (s : State.At c) (v : Count c) : (s.setRem v).S = s.S := rfl
@[simp] theorem State.At.setRem_P (s : State.At c) (v : Count c) : (s.setRem v).P = s.P := rfl
@[simp] theorem State.At.setRem_rem (s : State.At c) (v : Count c) : (s.setRem v).rem = some v := rfl
@[simp] theorem State.At.setRem_resp (s : State.At c) (v : Count c) : (s.setRem v).resp = s.resp := rfl
@[simp] theorem State.At.setRem_inputs (s : State.At c) (v : Count c) : (s.setRem v).inputs = s.inputs := rfl

@[simp] theorem State.At.voidRun_phase (s : State.At c) : s.voidRun.phase = s.phase := rfl
@[simp] theorem State.At.voidRun_err (s : State.At c) : s.voidRun.err = s.err := rfl
@[simp] theorem State.At.voidRun_pb (s : State.At c) : s.voidRun.pb = none := rfl
@[simp] theorem State.At.voidRun_W (s : State.At c) : s.voidRun.W = none := rfl
@[simp] theorem State.At.voidRun_hb (s : State.At c) : s.voidRun.hb = none := rfl
@[simp] theorem State.At.voidRun_A (s : State.At c) : s.voidRun.A = none := rfl
@[simp] theorem State.At.voidRun_S (s : State.At c) : s.voidRun.S = none := rfl
@[simp] theorem State.At.voidRun_P (s : State.At c) : s.voidRun.P = none := rfl
@[simp] theorem State.At.voidRun_rem (s : State.At c) : s.voidRun.rem = none := rfl
@[simp] theorem State.At.voidRun_resp (s : State.At c) : s.voidRun.resp = s.resp := rfl
@[simp] theorem State.At.voidRun_inputs (s : State.At c) : s.voidRun.inputs = s.inputs := rfl

@[simp] theorem State.At.setResp_phase (s : State.At c) (r : Response c) : (s.setResp r).phase = s.phase := rfl
@[simp] theorem State.At.setResp_err (s : State.At c) (r : Response c) : (s.setResp r).err = s.err := rfl
@[simp] theorem State.At.setResp_pb (s : State.At c) (r : Response c) : (s.setResp r).pb = s.pb := rfl
@[simp] theorem State.At.setResp_W (s : State.At c) (r : Response c) : (s.setResp r).W = s.W := rfl
@[simp] theorem State.At.setResp_hb (s : State.At c) (r : Response c) : (s.setResp r).hb = s.hb := rfl
@[simp] theorem State.At.setResp_A (s : State.At c) (r : Response c) : (s.setResp r).A = s.A := rfl
@[simp] theorem State.At.setResp_S (s : State.At c) (r : Response c) : (s.setResp r).S = s.S := rfl
@[simp] theorem State.At.setResp_P (s : State.At c) (r : Response c) : (s.setResp r).P = s.P := rfl
@[simp] theorem State.At.setResp_rem (s : State.At c) (r : Response c) : (s.setResp r).rem = s.rem := rfl
@[simp] theorem State.At.setResp_resp (s : State.At c) (r : Response c) : (s.setResp r).resp = some r := rfl
@[simp] theorem State.At.setResp_inputs (s : State.At c) (r : Response c) : (s.setResp r).inputs = s.inputs := rfl

@[simp] theorem State.At.setInputs_phase (s : State.At c) (l : List (Input c)) : (s.setInputs l).phase = s.phase := rfl
@[simp] theorem State.At.setInputs_err (s : State.At c) (l : List (Input c)) : (s.setInputs l).err = s.err := rfl
@[simp] theorem State.At.setInputs_pb (s : State.At c) (l : List (Input c)) : (s.setInputs l).pb = s.pb := rfl
@[simp] theorem State.At.setInputs_W (s : State.At c) (l : List (Input c)) : (s.setInputs l).W = s.W := rfl
@[simp] theorem State.At.setInputs_hb (s : State.At c) (l : List (Input c)) : (s.setInputs l).hb = s.hb := rfl
@[simp] theorem State.At.setInputs_A (s : State.At c) (l : List (Input c)) : (s.setInputs l).A = s.A := rfl
@[simp] theorem State.At.setInputs_S (s : State.At c) (l : List (Input c)) : (s.setInputs l).S = s.S := rfl
@[simp] theorem State.At.setInputs_P (s : State.At c) (l : List (Input c)) : (s.setInputs l).P = s.P := rfl
@[simp] theorem State.At.setInputs_rem (s : State.At c) (l : List (Input c)) : (s.setInputs l).rem = s.rem := rfl
@[simp] theorem State.At.setInputs_resp (s : State.At c) (l : List (Input c)) : (s.setInputs l).resp = s.resp := rfl
@[simp] theorem State.At.setInputs_inputs (s : State.At c) (l : List (Input c)) : (s.setInputs l).inputs = l := rfl

@[simp] theorem State.At.openResponse_phase (s : State.At c) : s.openResponse.phase = s.phase := rfl
@[simp] theorem State.At.openResponse_err (s : State.At c) : s.openResponse.err = s.err := rfl
@[simp] theorem State.At.openResponse_pb (s : State.At c) : s.openResponse.pb = s.pb := rfl
@[simp] theorem State.At.openResponse_W (s : State.At c) : s.openResponse.W = s.W := rfl
@[simp] theorem State.At.openResponse_hb (s : State.At c) : s.openResponse.hb = s.hb := rfl
@[simp] theorem State.At.openResponse_A (s : State.At c) : s.openResponse.A = s.A := rfl
@[simp] theorem State.At.openResponse_S (s : State.At c) : s.openResponse.S = s.S := rfl
@[simp] theorem State.At.openResponse_P (s : State.At c) : s.openResponse.P = s.P := rfl
@[simp] theorem State.At.openResponse_rem (s : State.At c) : s.openResponse.rem = s.rem := rfl
@[simp] theorem State.At.openResponse_resp (s : State.At c) : s.openResponse.resp = some (Response.bare .ok) := rfl
@[simp] theorem State.At.openResponse_inputs (s : State.At c) : s.openResponse.inputs = s.inputs := rfl

@[simp] theorem State.At.emit_phase (s : State.At c) (l : Label) (v : Reg c) : (s.emit l v).phase = s.phase := rfl
@[simp] theorem State.At.emit_err (s : State.At c) (l : Label) (v : Reg c) : (s.emit l v).err = s.err := rfl
@[simp] theorem State.At.emit_pb (s : State.At c) (l : Label) (v : Reg c) : (s.emit l v).pb = s.pb := rfl
@[simp] theorem State.At.emit_W (s : State.At c) (l : Label) (v : Reg c) : (s.emit l v).W = s.W := rfl
@[simp] theorem State.At.emit_hb (s : State.At c) (l : Label) (v : Reg c) : (s.emit l v).hb = s.hb := rfl
@[simp] theorem State.At.emit_A (s : State.At c) (l : Label) (v : Reg c) : (s.emit l v).A = s.A := rfl
@[simp] theorem State.At.emit_S (s : State.At c) (l : Label) (v : Reg c) : (s.emit l v).S = s.S := rfl
@[simp] theorem State.At.emit_P (s : State.At c) (l : Label) (v : Reg c) : (s.emit l v).P = s.P := rfl
@[simp] theorem State.At.emit_rem (s : State.At c) (l : Label) (v : Reg c) : (s.emit l v).rem = s.rem := rfl
@[simp] theorem State.At.emit_resp (s : State.At c) (l : Label) (v : Reg c) : (s.emit l v).resp = some (s.currentResp.addRecord l v) := rfl
@[simp] theorem State.At.emit_inputs (s : State.At c) (l : Label) (v : Reg c) : (s.emit l v).inputs = s.inputs := rfl

@[simp] theorem State.At.deliverProduct_phase (s : State.At c) (v : Value c) : (s.deliverProduct v).phase = s.phase := rfl
@[simp] theorem State.At.deliverProduct_err (s : State.At c) (v : Value c) : (s.deliverProduct v).err = s.err := rfl
@[simp] theorem State.At.deliverProduct_pb (s : State.At c) (v : Value c) : (s.deliverProduct v).pb = s.pb := rfl
@[simp] theorem State.At.deliverProduct_W (s : State.At c) (v : Value c) : (s.deliverProduct v).W = s.W := rfl
@[simp] theorem State.At.deliverProduct_hb (s : State.At c) (v : Value c) : (s.deliverProduct v).hb = s.hb := rfl
@[simp] theorem State.At.deliverProduct_A (s : State.At c) (v : Value c) : (s.deliverProduct v).A = s.A := rfl
@[simp] theorem State.At.deliverProduct_S (s : State.At c) (v : Value c) : (s.deliverProduct v).S = s.S := rfl
@[simp] theorem State.At.deliverProduct_P (s : State.At c) (v : Value c) : (s.deliverProduct v).P = s.P := rfl
@[simp] theorem State.At.deliverProduct_rem (s : State.At c) (v : Value c) : (s.deliverProduct v).rem = s.rem := rfl
@[simp] theorem State.At.deliverProduct_resp (s : State.At c) (v : Value c) : (s.deliverProduct v).resp = some { s.currentResp with product := some v } := rfl
@[simp] theorem State.At.deliverProduct_inputs (s : State.At c) (v : Value c) : (s.deliverProduct v).inputs = s.inputs := rfl

@[simp] theorem State.At.reject_phase (s : State.At c) : s.reject.phase = s.phase := rfl
@[simp] theorem State.At.reject_err (s : State.At c) : s.reject.err = s.err := rfl
@[simp] theorem State.At.reject_pb (s : State.At c) : s.reject.pb = s.pb := rfl
@[simp] theorem State.At.reject_W (s : State.At c) : s.reject.W = s.W := rfl
@[simp] theorem State.At.reject_hb (s : State.At c) : s.reject.hb = s.hb := rfl
@[simp] theorem State.At.reject_A (s : State.At c) : s.reject.A = s.A := rfl
@[simp] theorem State.At.reject_S (s : State.At c) : s.reject.S = s.S := rfl
@[simp] theorem State.At.reject_P (s : State.At c) : s.reject.P = s.P := rfl
@[simp] theorem State.At.reject_rem (s : State.At c) : s.reject.rem = s.rem := rfl
@[simp] theorem State.At.reject_resp (s : State.At c) : s.reject.resp = some (Response.bare .rejected) := rfl
@[simp] theorem State.At.reject_inputs (s : State.At c) : s.reject.inputs = s.inputs := rfl

@[simp] theorem State.At.failLoad_phase (s : State.At c) (e : Status) : (s.failLoad e).phase = .idle := rfl
@[simp] theorem State.At.failLoad_err (s : State.At c) (e : Status) : (s.failLoad e).err = e := rfl
@[simp] theorem State.At.failLoad_pb (s : State.At c) (e : Status) : (s.failLoad e).pb = none := rfl
@[simp] theorem State.At.failLoad_W (s : State.At c) (e : Status) : (s.failLoad e).W = none := rfl
@[simp] theorem State.At.failLoad_hb (s : State.At c) (e : Status) : (s.failLoad e).hb = none := rfl
@[simp] theorem State.At.failLoad_A (s : State.At c) (e : Status) : (s.failLoad e).A = none := rfl
@[simp] theorem State.At.failLoad_S (s : State.At c) (e : Status) : (s.failLoad e).S = none := rfl
@[simp] theorem State.At.failLoad_P (s : State.At c) (e : Status) : (s.failLoad e).P = none := rfl
@[simp] theorem State.At.failLoad_rem (s : State.At c) (e : Status) : (s.failLoad e).rem = none := rfl
@[simp] theorem State.At.failLoad_resp (s : State.At c) (e : Status) : (s.failLoad e).resp = some (Response.bare e) := rfl
@[simp] theorem State.At.failLoad_inputs (s : State.At c) (e : Status) : (s.failLoad e).inputs = s.inputs := rfl

@[simp] theorem State.At.enterFatal_phase (s : State.At c) : s.enterFatal.phase = .fatal := rfl
@[simp] theorem State.At.enterFatal_err (s : State.At c) : s.enterFatal.err = .internalInvariant := rfl
@[simp] theorem State.At.enterFatal_pb (s : State.At c) : s.enterFatal.pb = none := rfl
@[simp] theorem State.At.enterFatal_W (s : State.At c) : s.enterFatal.W = none := rfl
@[simp] theorem State.At.enterFatal_hb (s : State.At c) : s.enterFatal.hb = none := rfl
@[simp] theorem State.At.enterFatal_A (s : State.At c) : s.enterFatal.A = none := rfl
@[simp] theorem State.At.enterFatal_S (s : State.At c) : s.enterFatal.S = none := rfl
@[simp] theorem State.At.enterFatal_P (s : State.At c) : s.enterFatal.P = none := rfl
@[simp] theorem State.At.enterFatal_rem (s : State.At c) : s.enterFatal.rem = none := rfl
@[simp] theorem State.At.enterFatal_resp (s : State.At c) : s.enterFatal.resp = some (Response.bare .internalInvariant) := rfl
@[simp] theorem State.At.enterFatal_inputs (s : State.At c) : s.enterFatal.inputs = s.inputs := rfl

@[simp] theorem State.At.resetInput_phase (s : State.At c) : s.resetInput.phase = .idle := rfl
@[simp] theorem State.At.resetInput_err (s : State.At c) : s.resetInput.err = .ok := rfl
@[simp] theorem State.At.resetInput_pb (s : State.At c) : s.resetInput.pb = none := rfl
@[simp] theorem State.At.resetInput_W (s : State.At c) : s.resetInput.W = none := rfl
@[simp] theorem State.At.resetInput_hb (s : State.At c) : s.resetInput.hb = none := rfl
@[simp] theorem State.At.resetInput_A (s : State.At c) : s.resetInput.A = none := rfl
@[simp] theorem State.At.resetInput_S (s : State.At c) : s.resetInput.S = none := rfl
@[simp] theorem State.At.resetInput_P (s : State.At c) : s.resetInput.P = none := rfl
@[simp] theorem State.At.resetInput_rem (s : State.At c) : s.resetInput.rem = none := rfl
@[simp] theorem State.At.resetInput_resp (s : State.At c) : s.resetInput.resp = none := rfl
@[simp] theorem State.At.resetInput_inputs (s : State.At c) : s.resetInput.inputs = s.inputs := rfl

@[simp] theorem State.At.startRun_phase (s : State.At c) (g : Geometry) (mval m rval : Nat) :
    (s.startRun g mval m rval).phase = .run := rfl
@[simp] theorem State.At.startRun_err (s : State.At c) (g : Geometry) (mval m rval : Nat) :
    (s.startRun g mval m rval).err = .ok := rfl
@[simp] theorem State.At.startRun_pb (s : State.At c) (g : Geometry) (mval m rval : Nat) :
    (s.startRun g mval m rval).pb = some (toCount g.pb) := rfl
@[simp] theorem State.At.startRun_W (s : State.At c) (g : Geometry) (mval m rval : Nat) :
    (s.startRun g mval m rval).W = some (toCount g.W) := rfl
@[simp] theorem State.At.startRun_hb (s : State.At c) (g : Geometry) (mval m rval : Nat) :
    (s.startRun g mval m rval).hb = some (toCount g.hb) := rfl
@[simp] theorem State.At.startRun_A (s : State.At c) (g : Geometry) (mval m rval : Nat) :
    (s.startRun g mval m rval).A = some (toReg (buildA g mval)) := rfl
@[simp] theorem State.At.startRun_S (s : State.At c) (g : Geometry) (mval m rval : Nat) :
    (s.startRun g mval m rval).S = some (toReg (buildS c.negMode g mval m)) := rfl
@[simp] theorem State.At.startRun_P (s : State.At c) (g : Geometry) (mval m rval : Nat) :
    (s.startRun g mval m rval).P = some (toReg (buildP g rval)) := rfl
@[simp] theorem State.At.startRun_rem (s : State.At c) (g : Geometry) (mval m rval : Nat) :
    (s.startRun g mval m rval).rem = some (toCount g.pb) := rfl
@[simp] theorem State.At.startRun_inputs (s : State.At c) (g : Geometry) (mval m rval : Nat) :
    (s.startRun g mval m rval).inputs = s.inputs := rfl

/-- The response of an accepted LOAD: `OK` and the three records in order (R89). -/
@[simp] theorem State.At.startRun_resp (s : State.At c) (g : Geometry) (mval m rval : Nat) :
    (s.startRun g mval m rval).resp =
      some { status := .ok,
             recs := [⟨.a, toReg (buildA g mval)⟩, ⟨.s, toReg (buildS c.negMode g mval m)⟩, ⟨.p, toReg (buildP g rval)⟩],
             product := none, stat := none, regs := none } := rfl

@[simp] theorem Response.bare_status (e : Status) : (Response.bare e : Response c).status = e := rfl
@[simp] theorem Response.bare_recs (e : Status) : (Response.bare e : Response c).recs = [] := rfl
@[simp] theorem Response.bare_product (e : Status) : (Response.bare e : Response c).product = none := rfl
@[simp] theorem Response.bare_stat (e : Status) : (Response.bare e : Response c).stat = none := rfl
@[simp] theorem Response.bare_regs (e : Status) : (Response.bare e : Response c).regs = none := rfl

@[simp] theorem Response.addRecord_status (r : Response c) (l : Label) (v : Reg c) : (r.addRecord l v).status = r.status := rfl
@[simp] theorem Response.addRecord_recs (r : Response c) (l : Label) (v : Reg c) :
    (r.addRecord l v).recs = r.recs ++ [⟨l, v⟩] := rfl
@[simp] theorem Response.addRecord_product (r : Response c) (l : Label) (v : Reg c) :
    (r.addRecord l v).product = r.product := rfl
@[simp] theorem Response.addRecord_stat (r : Response c) (l : Label) (v : Reg c) : (r.addRecord l v).stat = r.stat := rfl
@[simp] theorem Response.addRecord_regs (r : Response c) (l : Label) (v : Reg c) : (r.addRecord l v).regs = r.regs := rfl

/-- A response on the port is the one under construction. -/
theorem State.At.currentResp_of_resp {s : State.At c} {r : Response c} (h : s.resp = some r) : s.currentResp = r := by
  simp [State.At.currentResp, h]

@[simp] theorem State.At.sendNext_inputs (s : State.At c) (w : CommandWord c) : (s.sendNext w).inputs = .command w :: s.inputs := rfl

end Sys2Proof.Machine
end

