-- ==== Sys2Proof/Laws/Ops.lean ====
section
/-! SUPPORT. What each shared operation can do, said once: a proof about a meaning cites these instead of unfolding the
operation. -/

namespace Sys2Proof.Machine
open Sys2Proof

variable {c : Params}

@[simp] theorem readReg_some {α : Type} (r : RunReg) (x : α) (k : α → Out c) : readReg r (some x) k = k x := rfl

@[simp] theorem readReg_none {α : Type} (r : RunReg) (k : α → Out c) :
    readReg r none k = .fault (.undefinedRegister r) := rfl

/-- A read that goes on found a value. -/
theorem readReg_eq_next {α : Type} {r : RunReg} {v : Option α} {k : α → Out c} {t : State.At c}
    (h : readReg r v k = .next t) : ∃ x, v = some x ∧ k x = .next t := by
  cases v with
  | none => simp at h
  | some x => exact ⟨x, rfl, h⟩

@[simp] theorem andThen_next (s : State.At c) (k : State.At c → Out c) : andThen (.next s) k = k s := rfl

@[simp] theorem andThen_fault (r : Fault) (k : State.At c → Out c) : andThen (.fault r) k = .fault r := rfl

@[simp] theorem andThen_refused (r : Refusal) (k : State.At c → Out c) : andThen (.refused r) k = .refused r := rfl

/-- A transaction that completes completed its first part. -/
theorem andThen_eq_next {o : Out c} {k : State.At c → Out c} {t : State.At c} (h : andThen o k = .next t) :
    ∃ s, o = .next s ∧ k s = .next t := by
  cases o with
  | next s => exact ⟨s, rfl, h⟩
  | fault r => simp at h
  | refused r => simp at h

/-- A read that stops found ⊥, or what follows it stopped. -/
theorem readReg_eq_fault {α : Type} {r : RunReg} {v : Option α} {k : α → Out c} {f : Fault}
    (h : readReg r v k = .fault f) : (v = none ∧ f = .undefinedRegister r) ∨ ∃ x, v = some x ∧ k x = .fault f := by
  cases v with
  | none => exact .inl ⟨rfl, by simpa using h.symm⟩
  | some x => exact .inr ⟨x, rfl, h⟩

/-- A transaction that stops stopped in its first part or after it. -/
theorem andThen_eq_fault {o : Out c} {k : State.At c → Out c} {f : Fault} (h : andThen o k = .fault f) :
    o = .fault f ∨ ∃ s, o = .next s ∧ k s = .fault f := by
  cases o with
  | next s => exact .inr ⟨s, rfl, h⟩
  | fault r => exact .inl (by simpa using h)
  | refused r => simp at h

/-- The order of three parts does not depend on how they are bracketed. -/
theorem andThen_assoc (o : Out c) (k l : State.At c → Out c) :
    andThen (andThen o k) l = andThen o fun s => andThen (k s) l := by
  cases o <;> rfl

/-- An addition completes only on defined registers, and does nothing but write P and its record. -/
theorem addInto_eq_next {l : Label} {x : RunReg} {v : Option (Reg c)} {s t : State.At c} (h : addInto l x v s = .next t) :
    ∃ p a w, s.P = some p ∧ v = some a ∧ s.W = some w ∧
      t = (s.setP (accumulate p a w.toNat)).emit l (accumulate p a w.toNat) := by
  obtain ⟨p, hp, h⟩ := readReg_eq_next h
  obtain ⟨a, ha, h⟩ := readReg_eq_next h
  obtain ⟨w, hw, h⟩ := readReg_eq_next h
  exact ⟨p, a, w, hp, ha, hw, by simpa using h.symm⟩

/-- Where its registers are defined, an addition completes. -/
theorem addInto_of_defined {l : Label} {x : RunReg} {v : Option (Reg c)} {s : State.At c} {p a : Reg c} {w : Count c}
    (hp : s.P = some p) (ha : v = some a) (hw : s.W = some w) :
    addInto l x v s = .next ((s.setP (accumulate p a w.toNat)).emit l (accumulate p a w.toNat)) := by
  simp [addInto, hp, ha, hw]

/-- A shift completes only on defined registers, and does nothing but write P and its record. -/
theorem execAsr_eq_next {s t : State.At c} (h : execAsr s = .next t) :
    ∃ p w, s.P = some p ∧ s.W = some w ∧ t = (s.setP (asr p w.toNat)).emit .shiftP (asr p w.toNat) := by
  obtain ⟨p, hp, h⟩ := readReg_eq_next h
  obtain ⟨w, hw, h⟩ := readReg_eq_next h
  exact ⟨p, w, hp, hw, by simpa using h.symm⟩

/-- The dispatch performs the meaning of the row that the pair decodes to. -/
theorem boothDispatch_cases (pair : BitVec 2) (s : State.At c) :
    (pair = 0#2 ∧ boothDispatch pair s = execBoothNop00 s) ∨ (pair = 1#2 ∧ boothDispatch pair s = execBoothAddA s) ∨
      (pair = 2#2 ∧ boothDispatch pair s = execBoothAddS s) ∨ (pair = 3#2 ∧ boothDispatch pair s = execBoothNop11 s) := by
  have h : pair = 0#2 ∨ pair = 1#2 ∨ pair = 2#2 ∨ pair = 3#2 := by
    revert pair; decide
  rcases h with rfl | rfl | rfl | rfl <;> simp [boothDispatch]

/-- What a completed dispatch can do: nothing, or an addition of A or S. -/
theorem boothDispatch_eq_next {pair : BitVec 2} {s t : State.At c} (h : boothDispatch pair s = .next t) :
    ((pair = 0#2 ∨ pair = 3#2) ∧ t = s) ∨ (pair = 1#2 ∧ addInto .pPlusA .A s.A s = .next t) ∨
      (pair = 2#2 ∧ addInto .pPlusS .S s.S s = .next t) := by
  rcases boothDispatch_cases pair s with ⟨hp, he⟩ | ⟨hp, he⟩ | ⟨hp, he⟩ | ⟨hp, he⟩ <;> rw [he] at h
  · exact .inl ⟨.inl hp, by simpa [execBoothNop00] using h.symm⟩
  · exact .inr (.inl ⟨hp, h⟩)
  · exact .inr (.inr ⟨hp, h⟩)
  · exact .inl ⟨.inr hp, by simpa [execBoothNop11] using h.symm⟩

/-- What a LOAD can do: it always completes, rejected in FATAL, failed with a code, or with a run started. -/
theorem execLoad_cases (m n mval rval : Nat) (s : State.At c) :
    (s.phase = .fatal ∧ execLoad m n mval rval s = .next s.reject) ∨
      (s.phase ≠ .fatal ∧ ∃ e, checkOperands c.wmax mval m rval n = .error e ∧
        execLoad m n mval rval s = .next (s.failLoad e)) ∨
      (s.phase ≠ .fatal ∧ ∃ g, checkOperands c.wmax mval m rval n = .ok g ∧
        execLoad m n mval rval s = .next (s.startRun g mval m rval)) := by
  unfold execLoad
  by_cases hf : s.phase = .fatal
  · simp [hf]
  · cases hc : checkOperands c.wmax mval m rval n <;> simp [hf]

/-- What a STEP can do: rejected outside RUN, else one iteration. -/
theorem execStep_cases (s : State.At c) :
    (s.phase = .run ∧ execStep s = stepRun s) ∨ (s.phase ≠ .run ∧ execStep s = .next s.reject) := by
  by_cases h : s.phase = .run <;> simp [execStep, h]

/-- What a completed end of a STEP did. -/
theorem finishStep_eq_next {s t : State.At c} (h : finishStep s = .next t) :
    ∃ r, s.rem = some r ∧
      ((r - 1 = 0 ∧ ∃ p pb, s.P = some p ∧ s.pb = some pb ∧
          t = ((s.setRem (r - 1)).setPhase .done).deliverProduct (productOf p pb)) ∨
        (r - 1 ≠ 0 ∧ t = s.setRem (r - 1))) := by
  obtain ⟨r, hr, h⟩ := readReg_eq_next h
  refine ⟨r, hr, ?_⟩
  split at h
  · obtain ⟨p, hp, h⟩ := readReg_eq_next h
    obtain ⟨pb, hpb, h⟩ := readReg_eq_next h
    exact .inl ⟨‹_›, p, pb, hp, hpb, by simpa using h.symm⟩
  · exact .inr ⟨‹_›, by simpa using h.symm⟩

/-- A completed QUERY changed nothing but the response port. -/
theorem execQuery_eq_next {s t : State.At c} (h : execQuery s = .next t) :
    ∃ r : Response c, r.status = .ok ∧ r.recs = [] ∧ r.stat.isSome = true ∧ t = s.setResp r := by
  have key : ∀ st, (readQueryRegs s fun regs => readProduct s fun prod =>
      Host.Outcome.next (s.setResp { status := .ok, recs := [], product := prod, stat := some st, regs := regs })) =
        (.next t : Out c) → ∃ r : Response c, r.status = .ok ∧ r.recs = [] ∧ r.stat.isSome = true ∧ t = s.setResp r := by
    intro st h
    have prod : ∀ regs, (readProduct s fun prod =>
        Host.Outcome.next (s.setResp { status := .ok, recs := [], product := prod, stat := some st, regs := regs })) =
          (.next t : Out c) → ∃ r : Response c, r.status = .ok ∧ r.recs = [] ∧ r.stat.isSome = true ∧ t = s.setResp r := by
      intro regs h
      unfold readProduct at h
      split at h
      · obtain ⟨_, _, h⟩ := readReg_eq_next h
        obtain ⟨_, _, h⟩ := readReg_eq_next h
        exact ⟨_, rfl, rfl, rfl, by simpa using h.symm⟩
      · exact ⟨_, rfl, rfl, rfl, by simpa using h.symm⟩
    unfold readQueryRegs at h
    split at h
    · obtain ⟨_, _, h⟩ := readReg_eq_next h
      obtain ⟨_, _, h⟩ := readReg_eq_next h
      obtain ⟨_, _, h⟩ := readReg_eq_next h
      exact prod _ h
    · exact prod _ h
  unfold execQuery readStatus at h
  split at h
  · obtain ⟨_, _, h⟩ := readReg_eq_next h
    obtain ⟨_, _, h⟩ := readReg_eq_next h
    exact key _ h
  · exact key _ h

end Sys2Proof.Machine
end

