-- ==== Sys2Proof/Laws/Block.lean ====
section
/-! SUPPORT. This hardware's dispatch and step next to those of a block with any parameters. -/

namespace Sys2Proof.Machine
open Sys2Proof

/-- The two dispatchers call one meaning for each row. -/
theorem exec_eq_execAt (i : Instr) (s : State) : exec i s = execAt i s := by cases i <;> rfl

/-- A step depends on its executor only at the decoded command. -/
theorem portStep_congr {c : Params} {ex ex' : Executor c} (h : ∀ i s, ex i s = ex' i s) (s : State.At c) :
    portStep ex s = portStep ex' s := by
  unfold portStep
  split
  · rfl
  · rename_i i _ _
    cases i with
    | command w => exact h _ _
    | reset => rfl

theorem step_eq_stepAt (s : State) : step s = stepAt s := portStep_congr exec_eq_execAt s

/-- What one step can do: nothing without an input, the decoded command, or the reset input. -/
theorem portStep_cases {c : Params} (ex : Executor c) (s : State.At c) :
    (s.inputs = [] ∧ portStep ex s = .next s) ∨
      (∃ w rest, s.inputs = .command w :: rest ∧ portStep ex s = ex (decodeCmd c w) (s.setInputs rest)) ∨
      (∃ rest, s.inputs = .reset :: rest ∧ portStep ex s = .next (s.setInputs rest).resetInput) := by
  unfold portStep
  split
  · exact .inl ⟨‹_›, rfl⟩
  · rename_i i rest h
    cases i with
    | command w => exact .inr (.inl ⟨w, rest, h, rfl⟩)
    | reset => exact .inr (.inr ⟨rest, h, rfl⟩)

end Sys2Proof.Machine
end

