-- ==== Sys2Proof/Laws/Config.lean ====
section
/-! SUPPORT. What the derived parameters of Config.lean hold for any WMAX (00_scope.md R7), and this hardware's values. -/

namespace Sys2Proof

/-- Every number up to WMAX fits WF bits. -/
theorem Config.lt_two_pow_bitlength (x : Nat) : x < 2 ^ Config.bitlength x := by
  unfold Config.bitlength
  split
  · omega
  · exact Nat.lt_log2_self

/-- A legal WMAX is `2·PB_MAX + 1`. -/
theorem Params.wmax_of_legal {c : Params} (h : c.legal) : c.wmax = 2 * c.pbMax + 1 := by
  obtain ⟨h1, h2⟩ := h
  simp only [Params.pbMax]
  omega

/-- Every register value of a run's geometry fits `WF` bits. -/
theorem Params.lt_two_pow_wf {c : Params} {v : Nat} (h : v ≤ c.wmax) : v < 2 ^ c.wf :=
  lt_of_le_of_lt h (Config.lt_two_pow_bitlength c.wmax)

/-- `PB_MAX` is at most WMAX, so a width that fits the value field fits its own field. -/
theorem Params.pbMax_le_wmax (c : Params) : c.pbMax ≤ c.wmax :=
  (Nat.div_le_self _ _).trans (Nat.sub_le _ _)

theorem Config.hw_legal : Config.hw.legal := by decide

@[simp] theorem Config.hw_wf : Config.hw.wf = 6 := by decide

@[simp] theorem Config.hw_pbMax : Config.hw.pbMax = 31 := by decide

@[simp] theorem Config.hw_cw : Config.hw.cw = 76 := by decide

@[simp] theorem Config.hw_statW : Config.hw.statW = 17 := by decide

end Sys2Proof
end

