-- ==== Sys2Proof/Laws/Decode.lean ====
section
/-! SUPPORT. The fields of an encoded command word, one lemma per field (30_encoding.md R61), the fields of a word as numbers
(00_scope.md R9), the decoder by the value of `op` (R62), and the round trips, for every WMAX. -/

namespace Sys2Proof

variable {c : Params}

/-- Two fields side by side, the lower one `p` values wide. -/
theorem add_mul_lt_mul {x y p q : Nat} (hx : x < p) (hy : y < q) : x + p * y < p * q := by
  calc x + p * y < p + p * y := by omega
    _ = p * (y + 1) := by ring
    _ ≤ p * q := Nat.mul_le_mul_left p hy

theorem add_mul_mod_left {x y p : Nat} (hx : x < p) : (x + p * y) % p = x := by
  rw [Nat.add_mul_mod_self_left, Nat.mod_eq_of_lt hx]

theorem add_mul_div_left' {x y p : Nat} (hx : x < p) : (x + p * y) / p = y := by
  rw [Nat.add_mul_div_left _ _ (by omega), Nat.div_eq_of_lt hx, Nat.zero_add]

/-- The command word as nested fields, `op` innermost (R61). -/
theorem nested_fields (a b o m n v r : Nat) :
    o + m * 2 ^ 2 + n * 2 ^ (2 + a) + v * 2 ^ (2 + 2 * a) + r * 2 ^ (2 + 2 * a + b) =
      o + 2 ^ 2 * (m + 2 ^ a * (n + 2 ^ a * (v + 2 ^ b * r))) := by
  rw [two_mul, show 2 + (a + a) + b = 2 + a + a + b by omega, show 2 + (a + a) = 2 + a + a by omega]
  simp only [pow_add]
  ring

/-- An encoded word as a number: each field at its place. -/
theorem encodeCmd_toNat (op : BitVec 2) (mw nw : Count c) (mval rval : Value c) :
    (encodeCmd c op mw nw mval rval).toNat =
      op.toNat + 2 ^ 2 * (mw.toNat + 2 ^ c.wf * (nw.toNat + 2 ^ c.wf * (mval.toNat + 2 ^ c.pbMax * rval.toNat))) := by
  have h := add_mul_lt_mul op.isLt
    (add_mul_lt_mul mw.isLt (add_mul_lt_mul nw.isLt (add_mul_lt_mul mval.isLt rval.isLt)))
  have hp : 2 ^ 2 * (2 ^ c.wf * (2 ^ c.wf * (2 ^ c.pbMax * 2 ^ c.pbMax))) = 2 ^ c.cw := by
    rw [← pow_add, ← pow_add, ← pow_add, ← pow_add]
    congr 1
    simp only [Params.cw]
    omega
  rw [hp] at h
  rw [encodeCmd, nested_fields, BitVec.toNat_ofNat, Nat.mod_eq_of_lt h]

theorem opOf_toNat (w : CommandWord c) : (opOf c w).toNat = w.toNat % 4 := by
  simp [opOf, BitVec.extractLsb'_toNat]

theorem mwOf_toNat (w : CommandWord c) : (mwOf c w).toNat = w.toNat / 2 ^ 2 % 2 ^ c.wf := by
  simp [mwOf, BitVec.extractLsb'_toNat, Nat.shiftRight_eq_div_pow]

theorem nwOf_toNat (w : CommandWord c) : (nwOf c w).toNat = w.toNat / 2 ^ (2 + c.wf) % 2 ^ c.wf := by
  simp [nwOf, BitVec.extractLsb'_toNat, Nat.shiftRight_eq_div_pow]

theorem mvalOf_toNat (w : CommandWord c) : (mvalOf c w).toNat = w.toNat / 2 ^ (2 + 2 * c.wf) % 2 ^ c.pbMax := by
  simp [mvalOf, BitVec.extractLsb'_toNat, Nat.shiftRight_eq_div_pow]

theorem rvalOf_toNat (w : CommandWord c) :
    (rvalOf c w).toNat = w.toNat / 2 ^ (2 + 2 * c.wf + c.pbMax) % 2 ^ c.pbMax := by
  simp [rvalOf, BitVec.extractLsb'_toNat, Nat.shiftRight_eq_div_pow]

/-- The places of the fields, one division after another. -/
theorem div_nw (x : Nat) : x / 2 ^ (2 + c.wf) = x / 2 ^ 2 / 2 ^ c.wf := by rw [pow_add, Nat.div_div_eq_div_mul]

theorem div_mval (x : Nat) : x / 2 ^ (2 + 2 * c.wf) = x / 2 ^ 2 / 2 ^ c.wf / 2 ^ c.wf := by
  rw [two_mul, ← add_assoc, pow_add, ← Nat.div_div_eq_div_mul, div_nw]

theorem div_rval (x : Nat) :
    x / 2 ^ (2 + 2 * c.wf + c.pbMax) = x / 2 ^ 2 / 2 ^ c.wf / 2 ^ c.wf / 2 ^ c.pbMax := by
  rw [pow_add, ← Nat.div_div_eq_div_mul, div_mval]

section Fields

variable (op : BitVec 2) (mw nw : Count c) (mval rval : Value c)

@[simp] theorem opOf_encodeCmd : opOf c (encodeCmd c op mw nw mval rval) = op := by
  apply BitVec.eq_of_toNat_eq
  rw [opOf_toNat, encodeCmd_toNat]
  exact add_mul_mod_left op.isLt

@[simp] theorem mwOf_encodeCmd : mwOf c (encodeCmd c op mw nw mval rval) = mw := by
  apply BitVec.eq_of_toNat_eq
  rw [mwOf_toNat, encodeCmd_toNat, add_mul_div_left' op.isLt, add_mul_mod_left mw.isLt]

@[simp] theorem nwOf_encodeCmd : nwOf c (encodeCmd c op mw nw mval rval) = nw := by
  apply BitVec.eq_of_toNat_eq
  rw [nwOf_toNat, encodeCmd_toNat, div_nw, add_mul_div_left' op.isLt, add_mul_div_left' mw.isLt,
    add_mul_mod_left nw.isLt]

@[simp] theorem mvalOf_encodeCmd : mvalOf c (encodeCmd c op mw nw mval rval) = mval := by
  apply BitVec.eq_of_toNat_eq
  rw [mvalOf_toNat, encodeCmd_toNat, div_mval, add_mul_div_left' op.isLt, add_mul_div_left' mw.isLt,
    add_mul_div_left' nw.isLt, add_mul_mod_left mval.isLt]

@[simp] theorem rvalOf_encodeCmd : rvalOf c (encodeCmd c op mw nw mval rval) = rval := by
  apply BitVec.eq_of_toNat_eq
  rw [rvalOf_toNat, encodeCmd_toNat, div_rval, add_mul_div_left' op.isLt, add_mul_div_left' mw.isLt,
    add_mul_div_left' nw.isLt, add_mul_div_left' mval.isLt, Nat.mod_eq_of_lt rval.isLt]

end Fields

/-- The value of `op` as one of four bit patterns. -/
theorem opOf_cases (w : CommandWord c) : opOf c w = 0#2 ∨ opOf c w = 1#2 ∨ opOf c w = 2#2 ∨ opOf c w = 3#2 := by
  generalize opOf c w = o
  revert o
  decide

/-- The four outcomes of the decoder. -/
theorem decodeCmd_cases (w : CommandWord c) :
    (opOf c w = 0#2 ∧ decodeCmd c w = .query) ∨
      (opOf c w = 1#2 ∧
        decodeCmd c w = .load (mwOf c w).toNat (nwOf c w).toNat (mvalOf c w).toNat (rvalOf c w).toNat) ∨
      (opOf c w = 2#2 ∧ decodeCmd c w = .step) ∨ (opOf c w = 3#2 ∧ decodeCmd c w = .reserved) := by
  rcases opOf_cases w with h | h | h | h <;> simp [decodeCmd, h]

/-- What fits: the four operands of a LOAD. -/
theorem load_fits_iff {m n mv rv : Nat} :
    (Instr.load m n mv rv).fits c = true ↔ m < 2 ^ c.wf ∧ n < 2 ^ c.wf ∧ mv < 2 ^ c.pbMax ∧ rv < 2 ^ c.pbMax := by
  simp [Instr.fits, widthFits, valueFits, and_assoc]

end Sys2Proof
end

