-- ==== Sys2Proof/Laws/Operands.lean ====
section
/-! SUPPORT. The bit-field primitives and the register builder as arithmetic on natural numbers: what a proof needs in
place of their definitions. -/

namespace Sys2Proof.Machine
open Sys2Proof

variable {c : Params}

theorem mask_lt (v w : Nat) : mask v w < 2 ^ w := Nat.mod_lt _ (by positivity)

theorem mask_of_lt {v w : Nat} (h : v < 2 ^ w) : mask v w = v := Nat.mod_eq_of_lt h

theorem bitAt_lt_two (v i : Nat) : bitAt v i < 2 := Nat.mod_lt _ (by decide)

@[simp] theorem toReg_toNat (v : Nat) : (toReg v : Reg c).toNat = v % 2 ^ c.wmax := rfl

@[simp] theorem toCount_toNat (v : Nat) : (toCount v : Count c).toNat = v % 2 ^ c.wf := rfl

@[simp] theorem toValue_toNat (v : Nat) : (toValue v : Value c).toNat = v % 2 ^ c.pbMax := rfl

/-- A value masked to a register's logical width fits the register's storage. -/
theorem toReg_toNat_of_lt {v w : Nat} (hw : w ≤ c.wmax) (h : v < 2 ^ w) : (toReg v : Reg c).toNat = v :=
  Nat.mod_eq_of_lt (lt_of_lt_of_le h (Nat.pow_le_pow_right (by decide) hw))

/-- A number up to WMAX keeps its value in a counter register. -/
theorem toCount_toNat_of_le {v : Nat} (h : v ≤ c.wmax) : (toCount v : Count c).toNat = v :=
  Nat.mod_eq_of_lt (Params.lt_two_pow_wf h)

@[simp] theorem pairOf_toNat (p : Reg c) : (pairOf p).toNat = p.toNat % 4 := by
  simp [pairOf, BitVec.extractLsb'_toNat]

/-- The accumulator's result is the sum modulo `2^W`. -/
theorem accumulate_toNat (p x : Reg c) {w : Nat} (hw : w ≤ c.wmax) :
    (accumulate p x w).toNat = (p.toNat + x.toNat) % 2 ^ w :=
  toReg_toNat_of_lt hw (mask_lt _ _)

/-- Bits `[W-1:1]` of a value below `2^W` are its half. -/
theorem slice_top_of_lt {v w : Nat} (hw : 1 ≤ w) (h : v < 2 ^ w) : slice v (w - 1) 1 = v / 2 := by
  obtain ⟨k, rfl⟩ : ∃ k, w = k + 1 := ⟨w - 1, by omega⟩
  have : v / 2 < 2 ^ k := by rw [pow_succ] at h; omega
  simp [slice, Nat.mod_eq_of_lt this]

/-- The top bit of a value below `2^W` says whether it reaches the upper half. -/
theorem bitAt_top {v w : Nat} (hw : 1 ≤ w) (h : v < 2 ^ w) :
    bitAt v (w - 1) = if 2 ^ (w - 1) ≤ v then 1 else 0 := by
  obtain ⟨k, rfl⟩ : ∃ k, w = k + 1 := ⟨w - 1, by omega⟩
  have hk : 0 < 2 ^ k := by positivity
  rw [pow_succ] at h
  simp only [bitAt, Nat.add_sub_cancel]
  split
  · rw [Nat.div_eq_of_lt_le (k := 1) (by omega) (by omega)]
  · rw [Nat.div_eq_of_lt (by omega)]

/-- The shift of a value whose bits at and above W are zero: half of it, with the sign bit set again. -/
theorem asr_toNat {k : Nat} (v : BitVec k) {w : Nat} (hw : 1 ≤ w) (hk : w ≤ k) (h : v.toNat < 2 ^ w) :
    (asr v w).toNat = v.toNat / 2 + bitAt v.toNat (w - 1) * 2 ^ (w - 1) := by
  have hb := bitAt_lt_two v.toNat (w - 1)
  have hlt : bitAt v.toNat (w - 1) * 2 ^ (w - 1) + v.toNat / 2 < 2 ^ w := by
    obtain ⟨j, rfl⟩ : ∃ j, w = j + 1 := ⟨w - 1, by omega⟩
    rw [pow_succ] at h ⊢
    have hb' : bitAt v.toNat j ≤ 1 := by simpa using Nat.le_of_lt_succ hb
    have := Nat.mul_le_mul_right (2 ^ j) hb'
    simp only [Nat.add_sub_cancel]
    omega
  have hlt' := lt_of_lt_of_le hlt (Nat.pow_le_pow_right (n := 2) (by decide) hk)
  rw [asr, slice_top_of_lt hw h, BitVec.toNat_ofNat, mask_of_lt hlt, Nat.mod_eq_of_lt hlt', Nat.add_comm]

/-- The shift never leaves the W-bit window, whatever stood above it. -/
theorem asr_lt {k : Nat} (v : BitVec k) (w : Nat) : (asr v w).toNat < 2 ^ w :=
  lt_of_le_of_lt (Nat.mod_le _ _) (mask_lt _ _)

/-- The negation within `negw` bits, for a value that fits them. -/
theorem twosComp_eq {v w : Nat} (h : v < 2 ^ w) : twosComp v w = if v = 0 then 0 else 2 ^ w - v := by
  have hn : Int.not (v : Int) + 1 = -(v : Int) := by
    have : Int.not (v : Int) = -(v : Int) - 1 := by cases v <;> (simp [Int.not, Int.negSucc_eq]; try omega)
    omega
  unfold twosComp maskInt
  rw [hn]
  split
  · simp_all
  · have hp : ((2 ^ w - v : Nat) : Int) = 2 ^ w - (v : Int) := by
      rw [Nat.cast_sub h.le]; push_cast; rfl
    rw [← Int.add_emod_right (-(v : Int)) (2 ^ w),
      Int.emod_eq_of_lt (by have : (v : Int) < 2 ^ w := by exact_mod_cast h
                            omega) (by omega)]
    omega

/-- The operand check accepts exactly the valid operands of a legal geometry. -/
theorem checkOperands_ok_iff (wmax mval m rval n : Nat) (g : Geometry) :
    checkOperands wmax mval m rval n = .ok g ↔
      1 ≤ m ∧ mval < 2 ^ m ∧ 1 ≤ n ∧ rval < 2 ^ n ∧ 2 * (m + n) + 1 ≤ wmax ∧ g = geometryOf m n := by
  unfold checkOperands invalidOperand
  split
  · rename_i h
    simp at h
    constructor
    · simp
    · rintro ⟨h1, h2, -⟩; omega
  · rename_i h
    simp at h
    split
    · rename_i h'
      simp at h'
      constructor
      · simp
      · rintro ⟨-, -, h1, h2, -⟩; omega
    · rename_i h'
      simp at h'
      split
      · rename_i hw
        simp only [geometryOf] at hw
        constructor
        · simp
        · rintro ⟨-, -, -, -, h1, -⟩; omega
      · rename_i hw
        simp only [geometryOf] at hw
        constructor
        · intro he
          injection he with he
          exact ⟨by omega, h.2, by omega, h'.2, by omega, he.symm⟩
        · rintro ⟨-, -, -, -, -, rfl⟩; rfl

/-- The only errors of the operand check. -/
theorem checkOperands_error {wmax mval m rval n : Nat} {c : Status}
    (h : checkOperands wmax mval m rval n = .error c) : c = .invalidOperand ∨ c = .widthOverflow := by
  unfold checkOperands at h
  split at h
  · simp_all
  · split at h
    · simp_all
    · split at h <;> simp_all

end Sys2Proof.Machine
end

