-- ==== Sys2Proof/Laws/PerInstr.lean ====
section
/-! SUPPORT. The per-instruction family `Encoding`: at every WMAX the encoded form of each row has the row's format and its
`match` bits in spec/opcode_table.json, and only the command rows stand on the command port. -/

namespace Sys2Proof.Laws.Encoding

/-- The row's `match` under its `mask` 0x3 (0 for ASR, which is "Not selected by any bits"). -/
def tableMatch : Instr → BitVec 2
  | .query => 0x0
  | .load _ _ _ _ => 0x1
  | .step => 0x2
  | .reserved => 0x3
  | .boothNop00 => 0x0
  | .boothAddA => 0x1
  | .boothAddS => 0x2
  | .boothNop11 => 0x3
  | .asr => 0x0

/-- The row's bits stand in its own format and carry its `match`. -/
def Statement (i : Instr) : Prop :=
  ∀ c : Params,
    match encode c i with
    | .cmd w => i.isCommand = true ∧ opOf c w = tableMatch i
    | .pair p => i.isCommand = false ∧ p = tableMatch i
    | .shift => i.isCommand = false ∧ i = .asr

theorem query : Statement .query := by simp [Statement, encode, Instr.isCommand, tableMatch]

theorem load (mw nw mval rval : Nat) : Statement (.load mw nw mval rval) := by
  simp [Statement, encode, Instr.isCommand, tableMatch]

theorem step : Statement .step := by simp [Statement, encode, Instr.isCommand, tableMatch]

theorem reserved : Statement .reserved := by simp [Statement, encode, Instr.isCommand, tableMatch]

theorem boothNop00 : Statement .boothNop00 := by simp [Statement, encode, Instr.isCommand, tableMatch]

theorem boothAddA : Statement .boothAddA := by simp [Statement, encode, Instr.isCommand, tableMatch]

theorem boothAddS : Statement .boothAddS := by simp [Statement, encode, Instr.isCommand, tableMatch]

theorem boothNop11 : Statement .boothNop11 := by simp [Statement, encode, Instr.isCommand, tableMatch]

theorem asr : Statement .asr := by simp [Statement, encode, Instr.isCommand]

end Sys2Proof.Laws.Encoding
end

