-- ==== Sys2Proof/Laws/Sequencer.lean ====
section
/-! SUPPORT. What a completed STEP can have done, said once (43_sequencer.md R120). -/

namespace Sys2Proof.Machine
open Sys2Proof

variable {c : Params}

/-- What the second half of a completed STEP did: the shift, the count, and on the last iteration DONE and the product. -/
theorem shiftAndFinish_eq_next {s t : State.At c} {r : Response c} (hr : s.resp = some r)
    (h : andThen (execAsr s) finishStep = .next t) :
    ∃ q w rm q', s.P = some q ∧ s.W = some w ∧ s.rem = some rm ∧ q' = asr q w.toNat ∧
      ((rm - 1 = 0 ∧ ∃ pb, s.pb = some pb ∧
          t = { s with P := some q', rem := some (rm - 1), phase := .done,
                       resp := some { r.addRecord .shiftP q' with product := some (productOf q' pb) } }) ∨
        (rm - 1 ≠ 0 ∧ t = { s with P := some q', rem := some (rm - 1), resp := some (r.addRecord .shiftP q') })) := by
  obtain ⟨s1, h1, h⟩ := andThen_eq_next h
  obtain ⟨q, w, hq, hw, hs1⟩ := execAsr_eq_next h1
  obtain ⟨rm, hrm, h⟩ := finishStep_eq_next h
  generalize hq' : asr q w.toNat = q' at hs1
  have hc := State.At.currentResp_of_resp hr
  have he : s1 = { s with P := some q', resp := some (r.addRecord .shiftP q') } := by
    rw [hs1, ← hc]; rfl
  subst he
  refine ⟨q, w, rm, q', hq, hw, hrm, hq'.symm, ?_⟩
  rcases h with ⟨hz, p, pb, hp, hpb, rfl⟩ | ⟨hz, rfl⟩
  · obtain rfl : q' = p := Option.some.inj hp
    exact .inl ⟨hz, pb, hpb, rfl⟩
  · exact .inr ⟨hz, rfl⟩

/-- What a completed STEP in RUN did: at most one addition, chosen by the pair of the P it found, then the shift and the
count. `q` is P between the two, `q'` after them. -/
theorem stepRun_eq_next {s t : State.At c} (h : stepRun s = .next t) :
    ∃ p w q rm q' recs, s.P = some p ∧ s.W = some w ∧ s.rem = some rm ∧ q' = asr q w.toNat ∧
      (((pairOf p = 0#2 ∨ pairOf p = 3#2) ∧ q = p ∧ recs = []) ∨
        (∃ a, pairOf p = 1#2 ∧ s.A = some a ∧ q = accumulate p a w.toNat ∧ recs = [⟨.pPlusA, q⟩]) ∨
        (∃ a, pairOf p = 2#2 ∧ s.S = some a ∧ q = accumulate p a w.toNat ∧ recs = [⟨.pPlusS, q⟩])) ∧
      ((rm - 1 = 0 ∧ ∃ pb, s.pb = some pb ∧
          t = { s with P := some q', rem := some (rm - 1), phase := .done,
                       resp := some ⟨.ok, recs ++ [⟨.shiftP, q'⟩], some (productOf q' pb), none, none⟩ }) ∨
        (rm - 1 ≠ 0 ∧
          t = { s with P := some q', rem := some (rm - 1),
                       resp := some ⟨.ok, recs ++ [⟨.shiftP, q'⟩], none, none, none⟩ })) := by
  obtain ⟨p, hp, h⟩ := readReg_eq_next h
  obtain ⟨s1, h1, h⟩ := andThen_eq_next h
  rcases boothDispatch_eq_next h1 with ⟨hc, rfl⟩ | ⟨hc, ha⟩ | ⟨hc, ha⟩
  · obtain ⟨q, w, rm, q', hq, hw, hrm, hq', ht⟩ := shiftAndFinish_eq_next rfl h
    obtain rfl : p = q := Option.some.inj (hp.symm.trans hq)
    exact ⟨p, w, p, rm, q', [], hp, hw, hrm, hq', .inl ⟨hc, rfl, rfl⟩, ht⟩
  · obtain ⟨p', a, w', hp', ha', hw', hs1⟩ := addInto_eq_next ha
    obtain rfl : p = p' := Option.some.inj (hp.symm.trans hp')
    generalize hx : accumulate p a w'.toNat = x at hs1
    subst hs1
    obtain ⟨q, w, rm, q', hq, hw, hrm, hq', ht⟩ := shiftAndFinish_eq_next rfl h
    obtain rfl : x = q := Option.some.inj hq
    obtain rfl : w' = w := Option.some.inj (hw'.symm.trans hw)
    exact ⟨p, w', x, rm, q', [⟨.pPlusA, x⟩], hp, hw, hrm, hq', .inr (.inl ⟨a, hc, ha', hx.symm, rfl⟩), ht⟩
  · obtain ⟨p', a, w', hp', ha', hw', hs1⟩ := addInto_eq_next ha
    obtain rfl : p = p' := Option.some.inj (hp.symm.trans hp')
    generalize hx : accumulate p a w'.toNat = x at hs1
    subst hs1
    obtain ⟨q, w, rm, q', hq, hw, hrm, hq', ht⟩ := shiftAndFinish_eq_next rfl h
    obtain rfl : x = q := Option.some.inj hq
    obtain rfl : w' = w := Option.some.inj (hw'.symm.trans hw)
    exact ⟨p, w', x, rm, q', [⟨.pPlusS, x⟩], hp, hw, hrm, hq', .inr (.inr ⟨a, hc, ha', hx.symm, rfl⟩), ht⟩
end Sys2Proof.Machine
end

