-- ==== Sys2Proof/Tests/Slice0.lean ====
section
/-! SUPPORT. Small tests on values taken from spec/ (each names its source), the smoke tests of WellFormed, and for each
statement with hypotheses a state and operands that meet them. -/

namespace Sys2Proof.Tests
open Sys2Proof Sys2Proof.Machine

/-! ### Helpers -/

/-- The next state of an outcome, if it has one. -/
def nextOf {c : Params} : Out c → Option (State.At c)
  | .next s => some s
  | .fault _ => none
  | .refused _ => none

/-- The fault of an outcome, if it has one. -/
def faultOf {c : Params} : Out c → Option Fault
  | .next _ => none
  | .fault f => some f
  | .refused _ => none

/-- The registers after `LOAD 0111, 0011` (95_test_vectors.md 2.2). -/
def regs73 : RunRegs Config.hw := { pb := 8, W := 17, hb := 9, A := 0xe00, S := 0x1f200, P := 0x6, rem := 8 }

/-- A block in phase `ph` with the registers `r`. -/
def blockWith (ph : Phase) (r : RunRegs Config.hw) : State :=
  { phase := ph, err := .ok, pb := some r.pb, W := some r.W, hb := some r.hb, A := some r.A, S := some r.S, P := some r.P,
    rem := some r.rem, resp := none, inputs := [] }

/-- The block after `LOAD 0111, 0011`. -/
def run73 : State := blockWith .run regs73

/-- The block before the last STEP of that run, and after it (95_test_vectors.md 1.1). -/
def last73 : State := blockWith .run { regs73 with P := 0x54, rem := 1 }
def done73 : State := blockWith .done { regs73 with P := 0x2a, rem := 0 }

/-- A block in FATAL. -/
def fatalBlock : State := State.reset.enterFatal

/-- The block that an input is about to reach. -/
def withInput (s : State) (i : Input Config.hw) : State := { s with inputs := [i] }

/-- The block of WMAX = 63 with the other value of NEG_MODE (R7). -/
def operandMode : Params := { wmax := 63, negMode := .operand }

/-- A small block: WMAX = 7, so PB_MAX = 3, WF = 3 and a command word of 14 bits (R7, R61). -/
def smallBlock : Params := { wmax := 7, negMode := .window }

/-! ### Well-formedness: an ill-formed term for each check -/

theorem test_wf_commands : Instr.query.wf Config.hw = true ∧ (Instr.load 4 4 7 3).wf Config.hw = true ∧
    Instr.step.wf Config.hw = true ∧ Instr.reserved.wf Config.hw = true := by decide

theorem test_wf_refuses_micro_operations : Instr.boothNop00.wf Config.hw = false ∧
    Instr.boothAddA.wf Config.hw = false ∧ Instr.boothAddS.wf Config.hw = false ∧
    Instr.boothNop11.wf Config.hw = false ∧ Instr.asr.wf Config.hw = false := by decide

/-- R61: a width field has 6 bits and a value field 31; on the small block both have 3. -/
theorem test_wf_refuses_wide_operands : (Instr.load 64 1 1 1).wf Config.hw = false ∧
    (Instr.load 1 64 1 1).wf Config.hw = false ∧ (Instr.load 1 1 (2 ^ 31) 1).wf Config.hw = false ∧
    (Instr.load 1 1 1 (2 ^ 31)).wf Config.hw = false ∧
    (Instr.load 63 63 (2 ^ 31 - 1) (2 ^ 31 - 1)).wf Config.hw = true ∧ (Instr.load 4 4 8 3).wf smallBlock = false ∧
    (Instr.load 7 7 7 7).wf smallBlock = true := by decide

/-- R61, for the numbers of `LOADR`. -/
theorem test_wf_refuses_wide_fields : (AsmLine.loadr 1 64 1 1).wf Config.hw = false ∧
    (AsmLine.loadr 1 1 1 64).wf Config.hw = false ∧ (AsmLine.loadr (2 ^ 31) 1 1 1).wf Config.hw = false ∧
    (AsmLine.loadr 1 1 (2 ^ 31) 1).wf Config.hw = false ∧ (AsmLine.loadr (2 ^ 31 - 1) 63 0 0).wf Config.hw = true := by
  decide

/-- R144: a string longer than 31 characters has no place in the value field. -/
theorem test_wf_refuses_long_strings : (AsmLine.load (List.replicate 32 true) [true]).wf Config.hw = false ∧
    (AsmLine.load [true] (List.replicate 32 true)).wf Config.hw = false ∧
    (AsmLine.run (List.replicate 32 true) [true]).wf Config.hw = false ∧
    (AsmLine.run [true] (List.replicate 32 true)).wf Config.hw = false ∧
    (AsmLine.load (List.replicate 31 true) []).wf Config.hw = true := by
  decide

/-! ### Decoding: words written out from the encoding of 30_encoding.md -/

/-- rval = 3 in [75:45], mval = 7 in [44:14], nw = 4 in [13:8], mw = 4 in [7:2], op = 01 in [1:0] (R61). -/
theorem test_decode_load : decodeCmd Config.hw
    (0b0000000000000000000000000000011#31 ++ 0b0000000000000000000000000000111#31 ++ 0b000100#6 ++ 0b000100#6 ++ 0b01#2) =
      .load 4 4 7 3 := by decide

/-- The same word as a number (R74), and one with a 1 in the top bit of each field. -/
theorem test_decode_load_fields : decodeCmd Config.hw 0x000000060000001c411 = .load 4 4 7 3 ∧
    decodeCmd Config.hw 0x8000000100000002081 = .load 32 32 0x40000000 0x40000000 := by decide

/-- R61 at WMAX = 7: rval = 5 in [13:11], mval = 6 in [10:8], nw = 3 in [7:5], mw = 7 in [4:2]; and the widths of R7. -/
theorem test_decode_small_block : decodeCmd smallBlock (0b101#3 ++ 0b110#3 ++ 0b011#3 ++ 0b111#3 ++ 0b01#2) =
      .load 7 3 6 5 ∧ smallBlock.cw = 14 ∧ smallBlock.statW = 11 := by decide

/-- 95_test_vectors.md 2.1: `0xffffffffffffffffffe` is a STEP, and op = 11 is reserved whatever the other bits. -/
theorem test_decode_ignores_fields : decodeCmd Config.hw 0xffffffffffffffffffe = .step ∧
    decodeCmd Config.hw 0xfffffffffffffffffff = .reserved ∧ decodeCmd Config.hw 0xffffffffffffffffffc = .query := by decide

/-- R69. -/
theorem test_decode_pairs : decodePair 0b00 = .boothNop00 ∧ decodePair 0b01 = .boothAddA ∧ decodePair 0b10 = .boothAddS ∧
    decodePair 0b11 = .boothNop11 := by decide

/-- The host's numbering: 76 or 80 bits for a command, 2 or 8 for a pair, none for ASR; a bit too many is refused by name. -/
theorem test_decode_table_words : decodeTableWord 80 0 = some .query ∧ decodeTableWord 76 2 = some .step ∧
    decodeTableWord 8 1 = some .boothAddA ∧ decodeTableWord 2 3 = some .boothNop11 ∧ decodeTableWord 0 0 = some .asr ∧
    decodeTableWord 80 (2 ^ 76) = none ∧ decodeTableWord 8 4 = none ∧ decodeTableWord 0 1 = none := by decide

/-- opcode_table.json: the first step after reset runs the row that was placed. -/
theorem test_placed_rows_run_first :
    ((nextOf (step (State.reset.withFetchWord 80 0))).bind (·.resp)).map (·.status) = some .ok ∧
    ((nextOf (step (State.reset.withFetchWord 80 0x000000060000001c411))).bind (·.A)) = some 0xe00 ∧
    ((nextOf (step (State.reset.withFetchWord 80 3))).bind (·.resp)).map (·.status) = some .rejected ∧
    ((nextOf (step (State.reset.withFetchWord 8 1))).bind (·.resp)).map (·.recs.map (·.label)) =
      some [.pPlusA, .shiftP] ∧
    ((nextOf (step (State.reset.withFetchWord 8 2))).bind (·.resp)).map (·.recs.map (·.label)) =
      some [.pPlusS, .shiftP] ∧
    ((nextOf (step (State.reset.withFetchWord 0 0))).bind (·.resp)).map (·.recs.map (·.label)) = some [.shiftP] := by
  decide

/-! ### Instructions: 95_test_vectors.md -/

/-- 2.2, the widest geometry: `LOAD` of 16 and 15 ones. -/
theorem test_load_widest : (nextOf (exec (.load 16 15 0xffff 0x7fff) State.reset)).map
    (fun t => (t.pb, t.W, t.hb, t.A, t.S, t.P)) =
      some (some 31, some 63, some 32, some 0xffff00000000, some 0x7fff000100000000, some 0xfffe) := by decide

/-- 2.2, `LOADR 0, 0, 0, 40`: both operands are bad and 40 is too wide; the multiplicand is reported. -/
theorem test_load_priority : (nextOf (exec (.load 0 40 0 0) run73)).map (fun t => (t.phase, t.err, t.P)) =
    some (.idle, .invalidOperand, none) := by decide

/-- 2.2, column S (OPERAND) of `LOADR 1, 30, 1, 1`. -/
theorem test_load_operand_mode : (nextOf (execAt (.load 30 1 1 1) (State.resetAt operandMode))).map (·.S) =
    some (some 0x3fffffff00000000) := by decide

/-- R83 at WMAX = 7: `m + n = 3` is accepted (W = 7), `m + n = 4` fails. -/
theorem test_load_small_block :
    (nextOf (execAt (.load 1 2 1 3) (State.resetAt smallBlock))).map (fun t => (t.phase, t.W, t.S)) =
      some (.run, some 7, some 0x70) ∧
    (nextOf (execAt (.load 2 2 1 3) (State.resetAt smallBlock))).map (fun t => (t.phase, t.err)) =
      some (.idle, .widthOverflow) := by decide

/-- 1.1, STEP 1: records `P+S 0x1f206` and `>>1 P 0x1f903`. -/
theorem test_step_first : ((nextOf (exec .step run73)).bind (·.resp)).map (·.recs) =
    some [⟨.pPlusS, 0x1f206⟩, ⟨.shiftP, 0x1f903⟩] := by decide

/-- 1.1, STEP 8: DONE with product 21. -/
theorem test_step_last : (nextOf (exec .step last73)).map (fun t => (t.phase, t.P, t.rem, t.resp.bind (·.product))) =
    some (.done, some 0x2a, some 0, some 21) := by decide

/-- P1: QUERY after the LOAD and in DONE. -/
theorem test_query_status : ((nextOf (exec .query run73)).bind (·.resp)).bind (·.stat) = some 0x4101 ∧
    ((nextOf (exec .query done73)).bind (·.resp)).map (fun r => (r.stat, r.product)) = some (some 0x4002, some 21) := by
  decide

/-- 43_sequencer.md R128: STATUS is `0x4` after INVALID_OPERAND. -/
theorem test_query_after_failed_load : ((nextOf (exec .query { State.reset with err := .invalidOperand })).bind
    (·.resp)).map (fun r => (r.stat, r.regs)) = some (some 0x4, none) := by decide

/-- 2.5: `.op3` in DONE. -/
theorem test_reserved_rejected : (nextOf (exec .reserved done73)).map (fun t => (t.phase, t.P, t.resp)) =
    some (.done, some 0x2a, some (Response.bare .rejected)) := by decide

/-- 2.3, row 3: the carry out of bit 16 is discarded. -/
theorem test_add_a_discards_carry : (nextOf (exec .boothAddA (blockWith .run { regs73 with P := 0x1fc81 }))).map (·.P) =
    some (some 0xa81) := by decide

/-- 2.3, the row at W = 63. -/
theorem test_add_s_widest : (nextOf (exec .boothAddS (blockWith .run
    { pb := 31, W := 63, hb := 32, A := 0xffff00000000, S := 0x7fff000100000000, P := 0xfffe, rem := 31 }))).map (·.P) =
      some (some 0x7fff00010000fffe) := by decide

/-- 2.3, rows 2 and 4. -/
theorem test_no_addition : nextOf (exec .boothNop00 run73) = some run73 ∧ nextOf (exec .boothNop11 run73) = some run73 := by
  decide

/-- 2.4: a set sign bit is replicated, at W = 17 and at W = 63. -/
theorem test_asr_sign : asr (0x1f206 : Reg Config.hw) 17 = 0x1f903 ∧
    asr (0x7fff00010000fffe : Reg Config.hw) 63 = 0x7fff800080007fff ∧
    asr (0xa81 : Reg Config.hw) 17 = 0x540 := by decide

/-- R36: a register that holds ⊥ is not read as 0. -/
theorem test_undefined_register_faults : faultOf (exec .asr State.reset) = some (.undefinedRegister .P) ∧
    faultOf (exec .boothAddA { run73 with A := none }) = some (.undefinedRegister .A) ∧
    faultOf (exec .step { run73 with W := none }) = some (.undefinedRegister .W) := by decide

/-- R180 (program P6): the reset input in the middle of a run. -/
theorem test_reset_input : nextOf (step (withInput run73 .reset)) = some State.reset := by decide

/-! ### The host: 95_test_vectors.md 2.6 -/

theorem test_parse : (parse "0011".toList).toOption = some (3, 4) ∧ (parse "".toList).toOption = none ∧
    (parse "0121".toList).toOption = none ∧ (parse " 101".toList).toOption = none := by decide

theorem test_format : format 0x1f200 8 = "11111001 00000000 0".toList ∧ format 0x5 2 = "00 10 1".toList ∧
    format 0x3ffff 8 = "11111111 11111111 1".toList := by decide

/-- R72, R73: an empty string, a comment, hexadecimal numbers, and the length of RUN's expansion. -/
theorem test_assembler : assembleText Config.hw "LOAD \"\", 0011 ; empty".toList = some [0x0000000600000000401] ∧
    assembleText Config.hw "LOADR 0x7fffffff, 31, 0x7fffffff, 31".toList = some [0xfffffffffffffffdf7d] ∧
    (assembleText Config.hw "RUN 1, 1".toList) = some [0x0000000200000004105, 2, 2] ∧
    assembleText Config.hw "; no command".toList = some [] ∧
    assembleText Config.hw "MUL 1, 1".toList = none := by decide

/-- 1.4 and 1.6 through `multiply`: the host's own error, and the block's mapped to the source's kind. -/
theorem test_multiply_errors : multiply [] "0011".toList run73 = (run73, .error .invalidOperand) ∧
    (multiply "1111111111111111".toList "1111111111111111".toList State.reset).2 = .error .registerWidthOverflow := by
  constructor <;> rfl

/-! ### Witnesses: the hypotheses of the statements can be met -/

/-- The legal run of AdditionWrapsWithoutTrace, AdditionKeepsLowerWindow, ShiftResult, StepResult
and StepDispatchesOnPair. -/
theorem witness_run_state : run73.phase = .run ∧ run73.holds regs73 ∧ regs73.legal ∧ 1 ≤ regs73.rem.toNat := by decide

/-- The same hypotheses at their boundaries: the smallest geometry on its last STEP with every pair, and the widest geometry. -/
theorem witness_run_state_boundaries :
    (∀ p : BitVec 2, RunRegs.legal (c := Config.hw)
      { pb := 2, W := 5, hb := 3, A := 8, S := 0x18, P := p.zeroExtend _, rem := 1 }) ∧
    RunRegs.legal (c := Config.hw)
      { pb := 31, W := 63, hb := 32, A := 0xffff00000000, S := 0x7fff000100000000, P := 0xfffe, rem := 31 } := by
  decide

/-- A legal run with the pair 0b00 (2.3, row 5) and with 0b11 (row 2): NoAdditionPairs. -/
theorem witness_NoAdditionPairs : RunRegs.legal (c := Config.hw) { regs73 with P := 0x4 } ∧
    RunRegs.legal (c := Config.hw) { regs73 with P := 0x1f903 } ∧
    (0x4 : Nat) % 4 = 0 ∧ (0x1f903 : Nat) % 4 = 3 := by decide

/-- The STEP that ends the run, and a command in DONE: DoneHoldsUntilLoadOrReset, StepResult at rem = 1. -/
theorem witness_last_step : last73.phase = .run ∧ last73.holds { regs73 with P := 0x54, rem := 1 } ∧
    RunRegs.legal (c := Config.hw) { regs73 with P := 0x54, rem := 1 } ∧ done73.phase = .done ∧
    (0x2 : CommandWord Config.hw).toNat % 4 ≠ 1 ∧ (nextOf (exec (decodeCmd Config.hw 0x2) done73)).isSome = true := by decide

/-- AddMultiplicandResult, AddNegatedMultiplicandResult, ShiftResult, NoAdditionPairs, StepDispatchesOnPair. -/
theorem witness_defined_registers : (run73.setResp (Response.bare .ok)).resp = some (Response.bare .ok) ∧
    (run73.setResp (Response.bare .ok)).P = some 0x6 ∧ (run73.setResp (Response.bare .ok)).A = some 0xe00 ∧
    (run73.setResp (Response.bare .ok)).S = some 0x1f200 ∧ (run73.setResp (Response.bare .ok)).W = some 17 ∧
    run73.phase = .run ∧ run73.P = some 0x6 ∧
    (1 ≤ (17 : Count Config.hw).toNat ∧ (0x6 : Reg Config.hw).toNat < 2 ^ (17 : Count Config.hw).toNat) := by decide

/-- The invariant in RUN: UndefinedRegisterIsNeverRead, ErrHoldsLastLoadStatus, EveryCommandAnswers. -/
theorem witness_run_invariant : run73.Inv :=
  ⟨⟨regs73, by decide, by decide, by decide⟩, by decide, by decide⟩

/-- The invariant in the other phases. -/
theorem witness_invariant_other_phases : done73.Inv ∧ fatalBlock.Inv ∧
    (State.reset.failLoad .widthOverflow).Inv :=
  ⟨⟨⟨{ regs73 with P := 0x2a, rem := 0 }, by decide, by decide, by decide⟩, by decide, by decide⟩,
    ⟨⟨rfl, rfl, rfl, rfl, rfl, rfl, rfl⟩, by decide, by decide⟩,
    ⟨⟨rfl, rfl, rfl, rfl, rfl, rfl, rfl⟩, by decide, by decide⟩⟩

theorem witness_InvariantKeptByStep : (withInput run73 (.command 2)).Inv ∧
    (nextOf (step (withInput run73 (.command 2)))).isSome = true :=
  ⟨⟨⟨regs73, by decide, by decide, by decide⟩, by decide, by decide⟩, by decide⟩

/-- UndefinedRegisterIsNeverRead, the clauses on the rows of the accumulator and the shifter, and the fault clause. -/
theorem witness_undefined_registers : State.reset.P = none ∧ State.reset.A = none ∧ State.reset.S = none ∧
    State.reset.W = none ∧ exec .asr State.reset = .fault (.undefinedRegister .P) := ⟨rfl, rfl, rfl, rfl, rfl⟩

/-- UndefinedRegisterIsNeverRead, the clauses on STEP: P, W or rem at ⊥; A at ⊥ and the pair 0b01; S at ⊥ and the pair 0b10;
pb at ⊥ on the last STEP. -/
theorem witness_undefined_registers_step :
    (blockWith .run regs73).phase = .run ∧ ({ run73 with P := none } : State).P = none ∧
    ({ run73 with W := none } : State).W = none ∧ ({ run73 with rem := none } : State).rem = none ∧
    (({ run73 with P := some 0x5, A := none } : State).P = some 0x5 ∧ (0x5 : Reg Config.hw).toNat % 4 = 1) ∧
    (({ run73 with S := none } : State).P = some 0x6 ∧ (0x6 : Reg Config.hw).toNat % 4 = 2) ∧
    (({ last73 with pb := none } : State).rem = some 1 ∧ ({ last73 with pb := none } : State).P = some 0x54) := by
  decide

/-- The same reads stop, each with a register that holds ⊥: the pair that adds A, the pair that adds S, the count, the
product. -/
theorem test_step_undefined_registers :
    faultOf (exec .step { run73 with P := some 0x5, A := none }) = some (.undefinedRegister .A) ∧
    faultOf (exec .step { run73 with S := none }) = some (.undefinedRegister .S) ∧
    faultOf (exec .step { run73 with rem := none }) = some (.undefinedRegister .rem) ∧
    faultOf (exec .step { last73 with pb := none }) = some (.undefinedRegister .pb) := by decide

/-- UndefinedRegisterIsNeverRead, the clause on QUERY, in RUN and in DONE. -/
theorem witness_undefined_registers_query : ({ run73 with S := none } : State).phase = .run ∧
    ({ run73 with S := none } : State).S = none ∧ ({ done73 with pb := none } : State).phase = .done ∧
    ({ done73 with pb := none } : State).pb = none ∧
    faultOf (exec .query { run73 with S := none }) = some (.undefinedRegister .S) ∧
    faultOf (exec .query { done73 with pb := none }) = some (.undefinedRegister .pb) := by decide

/-- AcceptedLoadResult, NegatedMultiplicand, RunTakesExactlyPbSteps, StepSeesMultiplierBits, RunRecordCount, WindowNeverOverflows,
WindowRunMultiplies, OperandRunClosedForm: valid operands at the smallest and the widest geometry, and with operand 0
(95_test_vectors.md 2.2), on this hardware, with NEG_MODE = OPERAND, and at WMAX = 7. -/
theorem witness_accepted_load : State.reset.phase ≠ .fatal ∧ ValidOperands 4 4 7 3 ∧ ValidOperands 1 1 1 1 ∧
    ValidOperands 16 15 0xffff 0x7fff ∧ ValidOperands 30 1 0 1 ∧ 30 + 1 ≤ Config.hw.pbMax ∧
    Config.hw.legal ∧ Config.hw.negMode = .window ∧
    operandMode.legal ∧ operandMode.negMode = .operand ∧ (State.resetAt operandMode).phase ≠ .fatal ∧
    30 + 1 ≤ operandMode.pbMax ∧
    smallBlock.legal ∧ smallBlock.negMode = .window ∧ (State.resetAt smallBlock).phase ≠ .fatal ∧
    1 + 2 ≤ smallBlock.pbMax := by
  decide

theorem witness_LoadInvalidOperandFails : run73.phase ≠ .fatal ∧ ¬ ValidOperands 0 2 0 3 ∧ ¬ ValidOperands 1 1 3 1 ∧
    ¬ ValidOperands 1 0 1 0 ∧ ¬ ValidOperands 1 1 1 2 ∧ ¬ ValidOperands 0 40 0 0 := by decide

theorem witness_LoadWidthOverflowFails : run73.phase ≠ .fatal ∧ ValidOperands 1 31 1 1 ∧ ValidOperands 63 63 1 1 ∧
    Config.hw.wmax < 2 * (1 + 31) + 1 ∧ Config.hw.legal := by decide

/-- LoadForgetsEarlierRun and the second clause of QueryIsIdempotent. -/
theorem witness_LoadForgetsEarlierRun : State.reset.phase ≠ .fatal ∧ run73.phase ≠ .fatal ∧
    State.reset.inputs = run73.inputs ∧ State.reset ≠ run73 ∧
    (((nextOf (exec (.load 4 4 7 3) run73)).bind (·.resp)).map (·.status)) = some .ok := by decide

theorem witness_BuilderMasksRemoveNothing : 1 ≤ 4 ∧ 7 < 2 ^ 4 ∧ 1 ≤ 4 ∧ 3 < 2 ^ 4 := by decide

/-- LoadRejectedInFatal, FatalIsNeverEntered, ErrHoldsLastLoadStatus in FATAL, and ResetInputFromEveryPhase. -/
theorem witness_fatal_block : fatalBlock.phase = .fatal ∧ (nextOf (exec (decodeCmd Config.hw 1) fatalBlock)).isSome = true ∧
    (nextOf (step (withInput fatalBlock .reset))).map (·.phase) = some .idle ∧
    (withInput fatalBlock .reset).inputs = .reset :: [] := by decide

theorem witness_StepRejectedOutsideRun : State.reset.phase ≠ .run ∧ done73.phase ≠ .run ∧ fatalBlock.phase ≠ .run := by
  decide

theorem witness_StepRunsDecodedCommand : (withInput run73 (.command 2)).inputs = .command 2 :: [] := by decide

theorem witness_HoldsStateBetweenInputs : run73.inputs = [] ∧ step (withInput run73 .reset) = .next State.reset ∧
    State.reset ≠ withInput run73 .reset := ⟨by decide, rfl, by decide⟩

/-- DecodeSelectsByOp, LoadFieldsReadStraight, LoadWordIsItsEncoding, ReservedCodeRejected: each value of `op`; a LOAD word whose
value does not fit its width (`LOADR 7, 4, 16, 4` of 1.5). -/
theorem witness_command_words : (0x0 : CommandWord Config.hw).toNat % 4 = 0 ∧
    (0x000000200000001c411 : CommandWord Config.hw).toNat % 4 = 1 ∧
    2 ^ (nwOf Config.hw 0x000000200000001c411).toNat ≤ (rvalOf Config.hw 0x000000200000001c411).toNat ∧
    (0x2 : CommandWord Config.hw).toNat % 4 = 2 ∧ (0x3 : CommandWord Config.hw).toNat % 4 = 3 := by decide

theorem witness_OnlyLoadWritesAddends : (∀ m n mv rv, Instr.step ≠ .load m n mv rv) ∧
    (nextOf (exec .step run73)).isSome = true := ⟨by intros; simp, by decide⟩

theorem witness_OnlyLoadAndStepChangePhase : (nextOf (exec .step last73)).map (·.phase) = some .done ∧
    last73.phase ≠ .done := by decide

theorem witness_ErrHoldsLastLoadStatus : (nextOf (exec (.load 4 4 7 3) State.reset)).isSome = true ∧
    (nextOf (exec (.load 4 4 7 3) fatalBlock)).isSome = true ∧ (nextOf (exec .reserved run73)).isSome = true := by decide

/-- QueryResult in each phase, and the first clause of QueryIsIdempotent. -/
theorem witness_QueryResult : run73.phase = .run ∧ run73.holds regs73 ∧ regs73.legal ∧ done73.phase = .done ∧
    RunRegs.legal (c := Config.hw) { regs73 with P := 0x2a, rem := 0 } ∧ done73.holds { regs73 with P := 0x2a, rem := 0 } ∧
    State.reset.phase = .idle ∧ fatalBlock.phase = .fatal ∧
    (nextOf (exec .query done73)).isSome = true := by decide

/-- A rejected, a failed and an accepted command with its response: RejectionsChangeNothing, ErrorEffects, RecordsPerCommand,
ProductOnlyInDone. -/
theorem witness_responses :
    ((nextOf (exec .step done73)).bind (·.resp)).map (·.status) = some .rejected ∧
    ((nextOf (exec (.load 0 2 0 3) run73)).bind (·.resp)).map (·.status) = some .invalidOperand ∧
    ((nextOf (exec (.load 1 31 1 1) run73)).bind (·.resp)).map (·.status) = some .widthOverflow ∧
    ((nextOf (exec .step last73)).bind (·.resp)).map (·.status) = some .ok ∧
    Instr.step.isCommand = true ∧ (Instr.load 0 2 0 3).isCommand = true := by decide

/-- InvalidPortFieldsAreZero: a response with no field, one with all three records, and one with product, STATUS and registers.
The numbers are R67's and R68's. -/
theorem witness_InvalidPortFieldsAreZero :
    ((Response.bare .rejected : Response Config.hw).recs.length ≤ 3 ∧
      (Response.bare .rejected : Response Config.hw).toPort.status = 4 ∧
      (Response.bare .rejected : Response Config.hw).toPort.pvalid = 0) ∧
    ((nextOf (exec (.load 4 4 7 3) State.reset)).bind (·.resp)).map
      (fun r => (r.recs.length, r.toPort.nrec, r.toPort.rec0, r.toPort.rec1, r.toPort.rec2)) =
        some (3, 3, ⟨0, 0xe00⟩, ⟨1, 0x1f200⟩, ⟨2, 0x6⟩) ∧
    ((nextOf (exec .query done73)).bind (·.resp)).map (fun r => (r.toPort.pvalid, r.toPort.qvalid, r.toPort.rvalid)) =
      some (1, 1, 1) := by
  decide

theorem witness_ReachableRegistersMatchPhase :
    ∃ t, Sys2Proof.core.run 2 { State.reset with inputs := [.command 0x000000060000001c411, .command 2] } = .next t :=
  ⟨_, rfl⟩

/-- ParametersOfTheBlock and LoadStatusPriority: legal parameters at the smallest WMAX, this hardware's and another; a legal pb at
its limit. DecodeOfEncodeIsIdentity: operands that fill their fields. -/
theorem witness_parameters : Params.legal { wmax := 5, negMode := .operand } ∧ Config.hw.legal ∧ smallBlock.legal ∧
    31 ≤ Config.hw.pbMax ∧ (Instr.load 63 63 0x7fffffff 0x7fffffff).fits Config.hw = true := by decide

/-- SourceShiftProcedure and ShiftMatchesTrueRegister, over wider storage and over storage of exactly W bits. -/
theorem witness_SourceShiftProcedure : 2 ≤ 5 ∧ 5 ≤ 63 ∧ (0b10001#63).toNat < 2 ^ 5 ∧ (0b10001#5).toNat < 2 ^ 5 := by decide

/-- The iteration counts of RunTakesExactlyPbSteps, StepSeesMultiplierBits and WindowNeverOverflows: the first and the last. -/
theorem witness_run_laws : 0 ≤ 4 + 4 ∧ 7 < 4 + 4 ∧ 4 + 4 ≤ Config.hw.pbMax := by decide

theorem witness_ParseReadsBinaryText : ['0', '1'] ≠ [] ∧ (∀ c ∈ ['0', '1'], c = '0' ∨ c = '1') ∧
    (∃ c ∈ ['0', '2'], c ≠ '0' ∧ c ≠ '1') := ⟨by decide, by simp, ⟨'2', by simp⟩⟩

theorem witness_HostMultiplyIsCorrect : State.reset.phase ≠ .fatal ∧ parse "0111".toList = .ok (7, 4) ∧
    parse "0011".toList = .ok (3, 4) ∧ 4 + 4 ≤ Config.hw.pbMax := ⟨by decide, rfl, rfl, by decide⟩

theorem witness_HostWidthCheckSendsNothing : parse (List.replicate 32 '1') = .ok (2 ^ 32 - 1, 32) ∧
    parse "1".toList = .ok (1, 1) ∧ Config.hw.pbMax < 32 := ⟨rfl, rfl, by decide⟩

theorem witness_AssembledLoadDecodes : [false, true, true, true].length ≤ Config.hw.pbMax ∧
    (List.replicate 31 true).length ≤ Config.hw.pbMax := by decide

end Sys2Proof.Tests
end

section
/-! What the derived parameters of R7 are for every legal WMAX, and that this hardware is the parametric block at `Config.hw`. -/

namespace Sys2Proof
open Sys2Proof.Machine

/-- With `Config.lt_two_pow_bitlength`: `bitlength` is the number of binary digits (R7). -/
theorem Config.two_pow_bitlength_pred_le {x : Nat} (h : x ≠ 0) : 2 ^ (Config.bitlength x - 1) ≤ x := by
  have hb : Config.bitlength x - 1 = x.log2 := by simp [Config.bitlength, h]
  rw [hb]
  exact Nat.log2_self_le h

theorem Params.wmax_ne_zero_of_legal {c : Params} (h : c.legal) : c.wmax ≠ 0 :=
  Nat.ne_of_gt (Nat.lt_of_lt_of_le (by decide) h.2)

/-- The check of `totalBits` against WMAX is the check of `productBits` against PB_MAX (R7, R83). -/
theorem Params.totalBits_le_wmax_iff {c : Params} (h : c.legal) (pb : Nat) :
    2 * pb + 1 ≤ c.wmax ↔ pb ≤ c.pbMax := by
  have hw := Params.wmax_of_legal h
  omega

/-- The largest values of hb and W in a run fit their registers (R22). -/
theorem Params.geometry_lt_two_pow_wf {c : Params} (h : c.legal) {pb : Nat} (hpb : pb ≤ c.pbMax) :
    pb + 1 < 2 ^ c.wf ∧ 2 * pb + 1 < 2 ^ c.wf := by
  have hW : 2 * pb + 1 < 2 ^ c.wf := Params.lt_two_pow_wf ((Params.totalBits_le_wmax_iff h pb).mpr hpb)
  exact ⟨by omega, hW⟩

/-- Settles O59: `wmax_of_legal` and the bounds of `bitlength` give the derived parameters, and every value of a geometry is at
most WMAX. -/
theorem parametersOfTheBlock : Obligations.ParametersOfTheBlock := by
  constructor
  · intro c h
    have hdigits := Config.two_pow_bitlength_pred_le (Params.wmax_ne_zero_of_legal h)
    exact ⟨(Params.wmax_of_legal h).symm, hdigits, Config.lt_two_pow_bitlength c.wmax, rfl, rfl,
      fun pb => ⟨Params.totalBits_le_wmax_iff h pb, Params.geometry_lt_two_pow_wf h⟩⟩
  · exact ⟨Config.hw_legal, rfl, Config.hw_pbMax, Config.hw_wf, Config.hw_cw, Config.hw_statW, rfl, by decide⟩

/-- Settles O60: the two dispatchers agree row by row, a step depends on its dispatcher only, and the reset state is defined
from the parametric one. -/
theorem hardwareIsTheDefaultBlock : Obligations.HardwareIsTheDefaultBlock :=
  ⟨exec_eq_execAt, step_eq_stepAt, rfl⟩

end Sys2Proof
end

section
/-! What a register that holds ⊥ does to a row (10_state.md R36): a row completes, or it stops at a register that holds ⊥ in
the state it began with; and which registers a completed row found defined. -/

namespace Sys2Proof.Machine
open Sys2Proof

variable {c : Params} {s t : State.At c}

/-- The outcome of something done from `s`: a next state, or the fault of a register that holds ⊥ in `s` (R36). -/
def CompletesOrFaults (s : State.At c) (o : Out c) : Prop := (∃ t, o = .next t) ∨ FaultsOnUndefined s o

theorem completesOrFaults_next (s t : State.At c) : CompletesOrFaults s (.next t) := .inl ⟨t, rfl⟩

theorem CompletesOrFaults.faults {o : Out c} (h : CompletesOrFaults s o) (hn : ∀ t, o ≠ .next t) :
    FaultsOnUndefined s o :=
  h.resolve_left fun ⟨t, ht⟩ => hn t ht

theorem completesOrFaults_readReg {α : Type} {x : RunReg} {v : Option α} {k : α → Out c} (hv : v = none → s.lacks x)
    (hk : ∀ a, v = some a → CompletesOrFaults s (k a)) : CompletesOrFaults s (readReg x v k) := by
  cases v with
  | none => exact .inr ⟨x, hv rfl, rfl⟩
  | some a => exact hk a rfl

theorem completesOrFaults_andThen {o : Out c} {k : State.At c → Out c} (ho : CompletesOrFaults s o)
    (hk : ∀ t, o = .next t → CompletesOrFaults s (k t)) : CompletesOrFaults s (andThen o k) := by
  rcases ho with ⟨t, rfl⟩ | ⟨x, hx, rfl⟩
  · exact hk t rfl
  · exact .inr ⟨x, hx, rfl⟩

/-- What follows in one transaction may be judged by the registers that were ⊥ when it began. -/
theorem CompletesOrFaults.of_lacks {o : Out c} (h : CompletesOrFaults t o) (hl : ∀ x, t.lacks x → s.lacks x) :
    CompletesOrFaults s o := by
  rcases h with h | ⟨x, hx, ho⟩
  · exact .inl h
  · exact .inr ⟨x, hl x hx, ho⟩

/-- A write of P undefines no register. -/
theorem lacks_of_setP_lacks {x : RunReg} {v : Reg c} (h : (s.setP v).lacks x) : s.lacks x := by
  cases x
  case P => simp [State.At.lacks] at h
  all_goals exact h

/-- The named parts of a STEP undefine no register: what is ⊥ after them was ⊥ before. -/
theorem addInto_lacks {l : Label} {y : RunReg} {v : Option (Reg c)} (h : addInto l y v s = .next t) {x : RunReg}
    (hx : t.lacks x) : s.lacks x := by
  obtain ⟨p, a, w, -, -, -, rfl⟩ := addInto_eq_next h
  exact lacks_of_setP_lacks (v := accumulate p a w.toNat) (by cases x <;> exact hx)

theorem execAsr_lacks (h : execAsr s = .next t) {x : RunReg} (hx : t.lacks x) : s.lacks x := by
  obtain ⟨p, w, -, -, rfl⟩ := execAsr_eq_next h
  exact lacks_of_setP_lacks (v := asr p w.toNat) (by cases x <;> exact hx)

theorem boothDispatch_lacks {pair : BitVec 2} (h : boothDispatch pair s = .next t) {x : RunReg} (hx : t.lacks x) :
    s.lacks x := by
  rcases boothDispatch_eq_next h with ⟨-, rfl⟩ | ⟨-, h⟩ | ⟨-, h⟩
  · exact hx
  · exact addInto_lacks h hx
  · exact addInto_lacks h hx

theorem completesOrFaults_addInto {l : Label} {x : RunReg} {v : Option (Reg c)} (hv : v = none → s.lacks x) :
    CompletesOrFaults s (addInto l x v s) :=
  completesOrFaults_readReg id fun _ _ => completesOrFaults_readReg hv fun _ _ =>
    completesOrFaults_readReg id fun _ _ => completesOrFaults_next _ _

theorem completesOrFaults_execAsr (s : State.At c) : CompletesOrFaults s (execAsr s) :=
  completesOrFaults_readReg id fun _ _ => completesOrFaults_readReg id fun _ _ => completesOrFaults_next _ _

theorem completesOrFaults_boothDispatch (pair : BitVec 2) (s : State.At c) :
    CompletesOrFaults s (boothDispatch pair s) := by
  rcases boothDispatch_cases pair s with ⟨-, he⟩ | ⟨-, he⟩ | ⟨-, he⟩ | ⟨-, he⟩ <;> rw [he]
  · exact completesOrFaults_next _ _
  · exact completesOrFaults_addInto id
  · exact completesOrFaults_addInto id
  · exact completesOrFaults_next _ _

theorem completesOrFaults_finishStep (s : State.At c) : CompletesOrFaults s (finishStep s) := by
  refine completesOrFaults_readReg id fun r _ => ?_
  split
  · exact completesOrFaults_readReg id fun _ _ => completesOrFaults_readReg id fun _ _ => completesOrFaults_next _ _
  · exact completesOrFaults_next _ _

theorem completesOrFaults_stepRun (s : State.At c) : CompletesOrFaults s (stepRun s) := by
  refine completesOrFaults_readReg id fun p _ => ?_
  refine completesOrFaults_andThen (completesOrFaults_boothDispatch (pairOf p) s.openResponse) fun s1 h1 => ?_
  have h01 : ∀ x, s1.lacks x → s.lacks x := fun x hx => boothDispatch_lacks h1 hx
  refine completesOrFaults_andThen ((completesOrFaults_execAsr s1).of_lacks h01) fun s2 h2 => ?_
  exact (completesOrFaults_finishStep s2).of_lacks fun x hx => h01 x (execAsr_lacks h2 hx)

theorem completesOrFaults_readStatus {k : StatusWord c → Out c} (hk : ∀ st, CompletesOrFaults s (k st)) :
    CompletesOrFaults s (readStatus s k) := by
  unfold readStatus
  split
  · exact completesOrFaults_readReg id fun _ _ => completesOrFaults_readReg id fun _ _ => hk _
  · exact hk _

theorem completesOrFaults_readQueryRegs {k : Option (QueryRegs c) → Out c} (hk : ∀ q, CompletesOrFaults s (k q)) :
    CompletesOrFaults s (readQueryRegs s k) := by
  unfold readQueryRegs
  split
  · exact completesOrFaults_readReg id fun _ _ => completesOrFaults_readReg id fun _ _ =>
      completesOrFaults_readReg id fun _ _ => hk _
  · exact hk _

theorem completesOrFaults_readProduct {k : Option (Value c) → Out c} (hk : ∀ v, CompletesOrFaults s (k v)) :
    CompletesOrFaults s (readProduct s k) := by
  unfold readProduct
  split
  · exact completesOrFaults_readReg id fun _ _ => completesOrFaults_readReg id fun _ _ => hk _
  · exact hk _

theorem completesOrFaults_execQuery (s : State.At c) : CompletesOrFaults s (execQuery s) :=
  completesOrFaults_readStatus fun _ => completesOrFaults_readQueryRegs fun _ =>
    completesOrFaults_readProduct fun _ => completesOrFaults_next _ _

theorem execLoad_completes (m n mval rval : Nat) (s : State.At c) : ∃ t, execLoad m n mval rval s = .next t := by
  rcases execLoad_cases m n mval rval s with ⟨-, h⟩ | ⟨-, e, -, h⟩ | ⟨-, g, -, h⟩ <;> exact ⟨_, h⟩

/-- Every row completes or stops at a register that holds ⊥; none is refused (R36). -/
theorem completesOrFaults_execAt (i : Instr) (s : State.At c) : CompletesOrFaults s (execAt i s) := by
  cases i with
  | query => exact completesOrFaults_execQuery s
  | load mw nw mval rval => exact .inl (execLoad_completes mw nw mval rval s)
  | step =>
    rcases execStep_cases s with ⟨-, he⟩ | ⟨-, he⟩
    · rw [execAt, he]
      exact completesOrFaults_stepRun s
    · exact .inl ⟨_, he⟩
  | reserved => exact completesOrFaults_next _ _
  | boothNop00 => exact completesOrFaults_next _ _
  | boothAddA => exact completesOrFaults_addInto id
  | boothAddS => exact completesOrFaults_addInto id
  | boothNop11 => exact completesOrFaults_next _ _
  | asr => exact completesOrFaults_execAsr s

/-- An addition that would read a register holding ⊥ does not complete. -/
theorem addInto_ne_next {l : Label} {x : RunReg} {v : Option (Reg c)} (hnone : s.P = none ∨ v = none ∨ s.W = none) :
    addInto l x v s ≠ .next t := by
  intro h
  obtain ⟨p, a, w, hp, ha, hw, -⟩ := addInto_eq_next h
  simp [hp, ha, hw] at hnone

/-- A shift that would read a register holding ⊥ does not complete. -/
theorem execAsr_ne_next (hnone : s.P = none ∨ s.W = none) : execAsr s ≠ .next t := by
  intro h
  obtain ⟨p, w, hp, hw, -⟩ := execAsr_eq_next h
  simp [hp, hw] at hnone

/-- A QUERY that completes with a run loaded found every register that it returns. -/
theorem execQuery_reads (hrun : s.phase = .run ∨ s.phase = .done) (h : execQuery s = .next t) :
    s.rem ≠ none ∧ s.pb ≠ none ∧ s.A ≠ none ∧ s.S ≠ none ∧ s.P ≠ none := by
  have hr : s.phase.hasRun = true := by rcases hrun with hp | hp <;> rw [hp] <;> rfl
  simp only [execQuery, readStatus, readQueryRegs, hr, if_true] at h
  obtain ⟨r, hrem, h⟩ := readReg_eq_next h
  obtain ⟨pb, hpb, h⟩ := readReg_eq_next h
  obtain ⟨a, ha, h⟩ := readReg_eq_next h
  obtain ⟨sv, hs, h⟩ := readReg_eq_next h
  obtain ⟨p, hp, -⟩ := readReg_eq_next h
  simp [hrem, hpb, ha, hs, hp]

/-- Without a run QUERY reads no register (R30, R128). -/
theorem execQuery_completes_of_no_run (hrun : s.phase = .idle ∨ s.phase = .fatal) : ∃ t, execQuery s = .next t := by
  rcases hrun with hp | hp <;> simp [execQuery, readStatus, readQueryRegs, readProduct, hp, Phase.hasRun]

/-- A STEP that completes in RUN found P, W and rem, the addend that its pair selects, and pb on the last iteration. -/
theorem stepRun_reads (h : stepRun s = .next t) :
    s.W ≠ none ∧ s.rem ≠ none ∧
      ∃ p, s.P = some p ∧ (p.toNat % 4 = 1 → s.A ≠ none) ∧ (p.toNat % 4 = 2 → s.S ≠ none) ∧
        (s.rem = some 1 → s.pb ≠ none) := by
  obtain ⟨p, w, q, rm, q', recs, hp, hw, hrm, -, hadd, hend⟩ := stepRun_eq_next h
  refine ⟨by simp [hw], by simp [hrm], p, hp, ?_, ?_, ?_⟩
  · intro h1
    rw [← pairOf_toNat] at h1
    rcases hadd with ⟨hc | hc, -⟩ | ⟨a, -, ha, -⟩ | ⟨a, hc, -⟩
    all_goals simp_all
  · intro h2
    rw [← pairOf_toNat] at h2
    rcases hadd with ⟨hc | hc, -⟩ | ⟨a, hc, -⟩ | ⟨a, -, ha, -⟩
    all_goals simp_all
  · intro h1
    obtain rfl : rm = 1 := Option.some.inj (hrm.symm.trans h1)
    rcases hend with ⟨-, pb, hpb, -⟩ | ⟨hne, -⟩
    · simp [hpb]
    · simp at hne

end Sys2Proof.Machine
end

section
/-! What a completed row leaves as it was: the frame of every row but LOAD (10_state.md R21, R29). -/

namespace Sys2Proof.Machine
open Sys2Proof

variable {c : Params} {s t : State.At c}

/-- A row other than LOAD and STEP writes P and the response only. -/
theorem execAt_frame {i : Instr} (hload : ∀ m n mv rv, i ≠ .load m n mv rv) (hstep : i ≠ .step)
    (h : execAt i s = .next t) : ∃ p r, t = { s with P := p, resp := r } := by
  cases i with
  | query =>
    obtain ⟨r, -, -, -, rfl⟩ := execQuery_eq_next h
    exact ⟨_, _, rfl⟩
  | load mw nw mval rval => exact absurd rfl (hload mw nw mval rval)
  | step => exact absurd rfl hstep
  | reserved => cases h; exact ⟨_, _, rfl⟩
  | boothNop00 => cases h; exact ⟨_, _, rfl⟩
  | boothAddA =>
    obtain ⟨p, a, w, -, -, -, rfl⟩ := addInto_eq_next h
    exact ⟨_, _, rfl⟩
  | boothAddS =>
    obtain ⟨p, a, w, -, -, -, rfl⟩ := addInto_eq_next h
    exact ⟨_, _, rfl⟩
  | boothNop11 => cases h; exact ⟨_, _, rfl⟩
  | asr =>
    obtain ⟨p, w, -, -, rfl⟩ := execAsr_eq_next h
    exact ⟨_, _, rfl⟩

/-- STEP writes PHASE, P, rem and the response only. -/
theorem execStep_frame (h : execStep s = .next t) :
    ∃ ph p rm r, t = { s with phase := ph, P := p, rem := rm, resp := r } := by
  rcases execStep_cases s with ⟨-, he⟩ | ⟨-, he⟩ <;> rw [he] at h
  · obtain ⟨-, -, -, -, -, -, -, -, -, -, -, ⟨-, -, -, rfl⟩ | ⟨-, rfl⟩⟩ := stepRun_eq_next h
    all_goals exact ⟨_, _, _, _, rfl⟩
  · cases h; exact ⟨_, _, _, _, rfl⟩

/-- Only LOAD writes ERR (R29). -/
theorem execAt_err {i : Instr} (hload : ∀ m n mv rv, i ≠ .load m n mv rv) (h : execAt i s = .next t) :
    t.err = s.err := by
  by_cases hstep : i = .step
  · subst hstep
    obtain ⟨_, _, _, _, rfl⟩ := execStep_frame h
    rfl
  · obtain ⟨_, _, rfl⟩ := execAt_frame hload hstep h
    rfl

end Sys2Proof.Machine
end

section
/-! The invariant of the block (10_state.md R34, with R22, R26, R27, R29, R66 and R106), by phase, and that every input of the
host keeps it, for any parameters. -/

namespace Sys2Proof.Machine
open Sys2Proof

variable {c : Params} {s t : State.At c}

theorem runFits_run_iff (hp : s.phase = .run) :
    s.runFits ↔ ∃ r : RunRegs c, s.holds r ∧ r.legal ∧ 1 ≤ r.rem.toNat := by
  rw [State.At.runFits, hp]

theorem runFits_done_iff (hp : s.phase = .done) : s.runFits ↔ ∃ r : RunRegs c, s.holds r ∧ r.legal ∧ r.rem = 0 := by
  rw [State.At.runFits, hp]

/-- The invariant in RUN, from its parts. -/
theorem inv_of_run {r : RunRegs c} (hp : s.phase = .run) (hr : s.holds r) (hl : r.legal) (hrem : 1 ≤ r.rem.toNat)
    (he : errFits .run s.err = true) (hresp : s.resp.all respFits = true) : s.Inv :=
  ⟨(runFits_run_iff hp).mpr ⟨r, hr, hl, hrem⟩, by rw [hp]; exact he, hresp⟩

/-- The invariant in DONE, from its parts. -/
theorem inv_of_done {r : RunRegs c} (hp : s.phase = .done) (hr : s.holds r) (hl : r.legal) (hrem : r.rem = 0)
    (he : errFits .done s.err = true) (hresp : s.resp.all respFits = true) : s.Inv :=
  ⟨(runFits_done_iff hp).mpr ⟨r, hr, hl, hrem⟩, by rw [hp]; exact he, hresp⟩

/-- With a run loaded, no register holds ⊥. -/
theorem not_lacks_of_holds {r : RunRegs c} (h : s.holds r) (x : RunReg) : ¬ s.lacks x := by
  obtain ⟨hpb, hW, hhb, hA, hS, hP, hrem⟩ := h
  cases x <;> simp [*]

/-- Under R34 a block without a run is in IDLE or FATAL, and one with a run lacks no register. -/
theorem no_run_or_not_lacks (h : s.runFits) : (s.phase = .idle ∨ s.phase = .fatal) ∨ ∀ x, ¬ s.lacks x := by
  cases hp : s.phase with
  | idle => exact .inl (.inl rfl)
  | fatal => exact .inl (.inr rfl)
  | run =>
    obtain ⟨r, hr, -⟩ := (runFits_run_iff hp).mp h
    exact .inr (not_lacks_of_holds hr)
  | done =>
    obtain ⟨r, hr, -⟩ := (runFits_done_iff hp).mp h
    exact .inr (not_lacks_of_holds hr)

/-- ERR never holds a code above 3 (R29). -/
theorem errFits_code_lt {p : Phase} {e : Status} (h : errFits p e = true) : e.code.toNat < 4 := by
  cases e with
  | rejected => cases p <;> simp [errFits] at h
  | _ => decide

theorem respFits_bare (e : Status) : respFits (Response.bare e : Response c) = true := by
  simp [respFits]

/-- The invariant says nothing of the inputs still to come. -/
theorem State.At.Inv.setInputs (h : s.Inv) (l : List (Input c)) : (s.setInputs l).Inv := h

theorem State.At.Inv.setResp {r : Response c} (h : s.Inv) (hr : respFits r = true) : (s.setResp r).Inv :=
  ⟨h.1, h.2.1, hr⟩

theorem State.At.Inv.reject (h : s.Inv) : s.reject.Inv := h.setResp (respFits_bare _)

theorem resetAt_inv (c : Params) : (State.resetAt c).Inv :=
  ⟨⟨rfl, rfl, rfl, rfl, rfl, rfl, rfl⟩, rfl, rfl⟩

theorem failLoad_inv (s : State.At c) {e : Status} (he : e = .invalidOperand ∨ e = .widthOverflow) :
    (s.failLoad e).Inv := by
  refine ⟨⟨rfl, rfl, rfl, rfl, rfl, rfl, rfl⟩, ?_, respFits_bare e⟩
  rcases he with rfl | rfl <;> rfl

/-- A value shifted left by `hb` and masked to a width of at least `hb` is 0 below `hb` (R106). -/
theorem mask_shifted_mod (v : Nat) {hb w : Nat} (h : hb ≤ w) : mask (v * 2 ^ hb) w % 2 ^ hb = 0 := by
  rw [mask, Nat.mod_mod_of_dvd _ (pow_dvd_pow 2 h), Nat.mul_mod_left]

/-- The registers that an accepted LOAD writes (R82, R84 to R86, R88). -/
def loadedRegs (c : Params) (m n mval rval : Nat) : RunRegs c :=
  let g := geometryOf m n
  { pb := toCount g.pb, W := toCount g.W, hb := toCount g.hb, A := toReg (buildA g mval),
    S := toReg (buildS c.negMode g mval m), P := toReg (buildP g rval), rem := toCount g.pb }

theorem startRun_holds_loadedRegs (s : State.At c) (m n mval rval : Nat) :
    (s.startRun (geometryOf m n) mval m rval).holds (loadedRegs c m n mval rval) :=
  ⟨rfl, rfl, rfl, rfl, rfl, rfl, rfl⟩

/-- A geometry that fits WMAX makes a legal run, whatever the values and in both modes. -/
theorem loadedRegs_legal {m n : Nat} (mval rval : Nat) (hm : 1 ≤ m) (hn : 1 ≤ n) (hW : 2 * (m + n) + 1 ≤ c.wmax) :
    (loadedRegs c m n mval rval).legal ∧ 1 ≤ (loadedRegs c m n mval rval).rem.toNat := by
  have hpb : (toCount (m + n) : Count c).toNat = m + n := toCount_toNat_of_le (by omega)
  have hWc : (toCount (2 * (m + n) + 1) : Count c).toNat = 2 * (m + n) + 1 := toCount_toNat_of_le hW
  have hhb : (toCount (m + n + 1) : Count c).toNat = m + n + 1 := toCount_toNat_of_le (by omega)
  have hreg : ∀ v, (toReg (mask v (2 * (m + n) + 1)) : Reg c).toNat = mask v (2 * (m + n) + 1) :=
    fun v => toReg_toNat_of_lt hW (mask_lt _ _)
  have hle : m + n + 1 ≤ 2 * (m + n) + 1 := by omega
  simp only [RunRegs.legal, loadedRegs, geometryOf, buildA, buildS, buildP, hpb, hWc, hhb, hreg]
  exact ⟨⟨by omega, by simp only [Params.pbMax]; omega, trivial, trivial, mask_lt _ _, mask_lt _ _, mask_lt _ _,
    mask_shifted_mod _ hle, mask_shifted_mod _ hle, le_rfl⟩, by omega⟩

theorem startRun_inv (s : State.At c) {m n : Nat} (mval rval : Nat) (hm : 1 ≤ m) (hn : 1 ≤ n)
    (hW : 2 * (m + n) + 1 ≤ c.wmax) : (s.startRun (geometryOf m n) mval m rval).Inv := by
  obtain ⟨hlegal, hrem⟩ := loadedRegs_legal mval rval hm hn hW
  exact inv_of_run rfl (startRun_holds_loadedRegs s m n mval rval) hlegal hrem rfl rfl

/-- LOAD keeps the invariant: the operand check accepts only geometries that fit WMAX. -/
theorem execLoad_inv {m n mval rval : Nat} (h : s.Inv) (he : execLoad m n mval rval s = .next t) : t.Inv := by
  rcases execLoad_cases m n mval rval s with ⟨-, hx⟩ | ⟨-, e, hc, hx⟩ | ⟨-, g, hc, hx⟩ <;> rw [hx] at he <;> cases he
  · exact h.reject
  · exact failLoad_inv s (checkOperands_error hc)
  · obtain ⟨hm, -, hn, -, hW, rfl⟩ := (checkOperands_ok_iff _ _ _ _ _ _).mp hc
    exact startRun_inv s mval rval hm hn hW

/-- What a STEP changes of a legal run leaves it legal: P within W bits, and rem no larger. -/
theorem legal_of_step {r : RunRegs c} (h : r.legal) {p : Reg c} {rem : Count c} (hp : p.toNat < 2 ^ r.W.toNat)
    (hrem : rem.toNat ≤ r.rem.toNat) : { r with P := p, rem := rem }.legal := by
  obtain ⟨hpb, hmax, hW, hhb, hA, hS, -, hAlow, hSlow, hrempb⟩ := h
  exact ⟨hpb, hmax, hW, hhb, hA, hS, hp, hAlow, hSlow, hrem.trans hrempb⟩

/-- The count does not wrap while it is at least 1. -/
theorem sub_one_toNat {k : Nat} {r : BitVec k} (h : 1 ≤ r.toNat) : (r - 1).toNat = r.toNat - 1 := by
  have h1 : (1 : BitVec k).toNat = 1 := by
    simpa using Nat.mod_eq_of_lt (lt_of_le_of_lt h r.isLt)
  rw [BitVec.toNat_sub_of_le (by rw [BitVec.le_def, h1]; exact h), h1]

/-- One iteration keeps the invariant: the shift leaves P within W bits, and rem reaches 0 exactly where PHASE becomes DONE. -/
theorem stepRun_inv (h : s.Inv) (hrun : s.phase = .run) (he : stepRun s = .next t) : t.Inv := by
  obtain ⟨hfits, herr, -⟩ := h
  obtain ⟨r, hr, hlegal, hpos⟩ := (runFits_run_iff hrun).mp hfits
  obtain ⟨hpb, hW, hhb, hA, hS, hP, hrem⟩ := hr
  rw [hrun] at herr
  obtain ⟨p, w, q, rm, q', recs, -, hw, hrm, hq', hadd, hend⟩ := stepRun_eq_next he
  obtain rfl : r.W = w := Option.some.inj (hW.symm.trans hw)
  obtain rfl : r.rem = rm := Option.some.inj (hrem.symm.trans hrm)
  have hsub := sub_one_toNat hpos
  have hlegal' := legal_of_step hlegal (hq' ▸ asr_lt q r.W.toNat : q'.toNat < 2 ^ r.W.toNat)
    (by omega : (r.rem - 1).toNat ≤ r.rem.toNat)
  have hrecs : recs.length ≤ 1 := by
    rcases hadd with ⟨-, -, rfl⟩ | ⟨a, -, -, -, rfl⟩ | ⟨a, -, -, -, rfl⟩ <;> simp
  rcases hend with ⟨hz, pb, -, rfl⟩ | ⟨hne, rfl⟩
  · exact inv_of_done (r := { r with P := q', rem := r.rem - 1 }) rfl ⟨hpb, hW, hhb, hA, hS, rfl, rfl⟩ hlegal' hz herr
      (by simp [respFits]; omega)
  · have hpos' : 1 ≤ (r.rem - 1).toNat :=
      Nat.one_le_iff_ne_zero.mpr fun h0 => hne (BitVec.eq_of_toNat_eq (by simpa using h0))
    exact inv_of_run (r := { r with P := q', rem := r.rem - 1 }) hrun ⟨hpb, hW, hhb, hA, hS, rfl, rfl⟩ hlegal' hpos' herr
      (by simp [respFits]; omega)

theorem execStep_inv (h : s.Inv) (he : execStep s = .next t) : t.Inv := by
  rcases execStep_cases s with ⟨hrun, hx⟩ | ⟨-, hx⟩ <;> rw [hx] at he
  · exact stepRun_inv h hrun he
  · cases he; exact h.reject

theorem execQuery_inv (h : s.Inv) (he : execQuery s = .next t) : t.Inv := by
  obtain ⟨r, hst, hrecs, -, rfl⟩ := execQuery_eq_next he
  exact h.setResp (by simp [respFits, hst, hrecs])

/-- Every command keeps the invariant. -/
theorem command_inv (w : CommandWord c) (h : s.Inv) (he : execAt (decodeCmd c w) s = .next t) : t.Inv := by
  rcases decodeCmd_cases w with ⟨-, hd⟩ | ⟨-, hd⟩ | ⟨-, hd⟩ | ⟨-, hd⟩ <;> rw [hd] at he
  · exact execQuery_inv h he
  · exact execLoad_inv h he
  · exact execStep_inv h he
  · cases he; exact h.reject

/-- Every step keeps the invariant, whatever the input (R34). -/
theorem stepAt_inv (h : s.Inv) (he : stepAt s = .next t) : t.Inv := by
  rcases portStep_cases execAt s with ⟨-, hx⟩ | ⟨w, rest, -, hx⟩ | ⟨rest, -, hx⟩ <;> rw [stepAt, hx] at he
  · cases he; exact h
  · exact command_inv w (h.setInputs rest) he
  · cases he; exact (resetAt_inv c).setInputs rest

/-- Under the invariant every command completes: without a run it reads no register, with a run none holds ⊥ (R36). -/
theorem command_completes (w : CommandWord c) (h : s.Inv) : ∃ t, execAt (decodeCmd c w) s = .next t := by
  rcases no_run_or_not_lacks h.1 with hp | hdef
  · rcases decodeCmd_cases w with ⟨-, hd⟩ | ⟨-, hd⟩ | ⟨-, hd⟩ | ⟨-, hd⟩ <;> rw [hd]
    · exact execQuery_completes_of_no_run hp
    · exact execLoad_completes _ _ _ _ s
    · have hne : s.phase ≠ .run := by rcases hp with hp | hp <;> simp [hp]
      exact ⟨s.reject, by simp [execAt, execStep, hne]⟩
    · exact ⟨s.reject, rfl⟩
  · exact (completesOrFaults_execAt (decodeCmd c w) s).resolve_right fun ⟨x, hx, _⟩ => hdef x hx

theorem stepAt_completes (h : s.Inv) : ∃ t, stepAt s = .next t := by
  rcases portStep_cases execAt s with ⟨-, hx⟩ | ⟨w, rest, -, hx⟩ | ⟨rest, -, hx⟩ <;> rw [stepAt, hx]
  · exact ⟨s, rfl⟩
  · exact command_completes w (h.setInputs rest)
  · exact ⟨_, rfl⟩

/-- What every step of a machine keeps holds after any number of steps. -/
theorem core_run_keeps {M : Host.Core} {I : M.State → Prop} (hstep : ∀ s t, I s → M.step s = .next t → I t) :
    ∀ (k : Nat) (s t : M.State), I s → M.run k s = .next t → I t := by
  intro k
  induction k with
  | zero =>
    intro s t hs h
    cases h
    exact hs
  | succ k ih =>
    intro s t hs h
    rw [Host.Core.run] at h
    split at h
    · exact ih _ t (hstep s _ hs ‹_›) h
    · cases h
    · cases h

end Sys2Proof.Machine
end

section
/-! The statements of 10_state.md. -/

namespace Sys2Proof
open Sys2Proof.Machine

/-- Settles O45: the invariant is kept by each of the four commands, by the reset input and by a step without an input. -/
theorem invariantKeptByStep : Obligations.InvariantKeptByStep := by
  intro s t h he
  rw [step_eq_stepAt] at he
  exact stepAt_inv h he

/-- Settles O44: at reset the phase is IDLE, no run register holds a value, and no response stands on the port. -/
theorem invariantAtReset : Obligations.InvariantAtReset := resetAt_inv Config.hw

/-- Settles O46: the invariant holds at reset with any inputs waiting, and every step keeps it. -/
theorem reachableRegistersMatchPhase : Obligations.ReachableRegistersMatchPhase := by
  intro l k t h
  have hinv : State.At.Inv t :=
    core_run_keeps (M := core) (I := State.At.Inv) invariantKeptByStep k _ t (invariantAtReset.setInputs l) h
  exact hinv.1

/-- Settles O23: a row completes or stops at a register that holds ⊥, so it stops where a completed row would have needed one;
and under the invariant no command needs one. -/
theorem undefinedRegisterIsNeverRead : Obligations.UndefinedRegisterIsNeverRead := by
  have hfaults : ∀ (i : Instr) (s : State), (∀ t, execAt i s ≠ .next t) → FaultsOnUndefined s (execAt i s) :=
    fun i s => (completesOrFaults_execAt i s).faults
  simp only [Obligations.UndefinedRegisterIsNeverRead, exec_eq_execAt, step_eq_stepAt]
  refine ⟨?_, ?_, ?_, ?_, ?_, ?_, ?_, fun s h => stepAt_completes h⟩
  · exact fun s hnone => hfaults .boothAddA s fun _ => addInto_ne_next hnone
  · exact fun s hnone => hfaults .boothAddS s fun _ => addInto_ne_next hnone
  · exact fun s hnone => hfaults .asr s fun _ => execAsr_ne_next hnone
  · refine fun s hrun hnone => hfaults .step s fun t ht => ?_
    rw [execAt, execStep, if_pos hrun] at ht
    obtain ⟨hw, hrem, p, hp, -⟩ := stepRun_reads ht
    simp [hp, hw, hrem] at hnone
  · refine fun s p hrun hp hnone => hfaults .step s fun t ht => ?_
    rw [execAt, execStep, if_pos hrun] at ht
    obtain ⟨-, -, p', hp', hA, hS, hpb⟩ := stepRun_reads ht
    obtain rfl : p = p' := Option.some.inj (hp.symm.trans hp')
    rcases hnone with ⟨hc, h⟩ | ⟨hc, h⟩ | ⟨hc, h⟩
    · exact hA hc h
    · exact hS hc h
    · exact hpb hc h
  · refine fun s hrun hnone => hfaults .query s fun t ht => ?_
    obtain ⟨hrem, hpb, hA, hS, hP⟩ := execQuery_reads hrun ht
    simp [hrem, hpb, hA, hS, hP] at hnone
  · exact fun i s f hf => hfaults i s fun t ht => by simp [hf] at ht

/-- Settles O33: the rows other than LOAD and STEP write P and the response only. -/
theorem onlyLoadAndStepChangePhase : Obligations.OnlyLoadAndStepChangePhase := by
  intro i s t he hphase
  rw [exec_eq_execAt] at he
  by_contra hi
  push Not at hi
  obtain ⟨hstep, hload⟩ := hi
  obtain ⟨_, _, rfl⟩ := execAt_frame hload hstep he
  exact hphase rfl

/-- Settles O34: a LOAD outside FATAL answers the code that it writes, no other row writes ERR, and `errFits` excludes
REJECTED. -/
theorem errHoldsLastLoadStatus : Obligations.ErrHoldsLastLoadStatus := by
  refine ⟨?_, ?_, ?_, rfl, fun _ => rfl, fun s h => errFits_code_lt h.2.1⟩
  · intro s t m n mv rv hphase he
    rw [exec_eq_execAt] at he
    rcases execLoad_cases m n mv rv s with ⟨hf, -⟩ | ⟨-, e, hc, hx⟩ | ⟨-, g, -, hx⟩
    · exact absurd hf hphase
    · cases hx.symm.trans he
      exact ⟨_, rfl, rfl, .inr (checkOperands_error hc)⟩
    · cases hx.symm.trans he
      exact ⟨_, rfl, rfl, .inl rfl⟩
  · intro i s t hload he
    rw [exec_eq_execAt] at he
    exact execAt_err hload he
  · intro s t m n mv rv hphase he
    rw [exec_eq_execAt, execAt, execLoad, if_pos hphase] at he
    cases he
    rfl

/-- Settles O1: the reset state is a literal; QUERY reads no register there, and STEP is rejected. -/
theorem resetValues : Obligations.ResetValues :=
  ⟨rfl, rfl, ⟨rfl, rfl, rfl, rfl, rfl, rfl, rfl⟩, ⟨_, _, rfl, rfl, rfl, rfl⟩, rfl⟩

end Sys2Proof
end

section
/-! What a host relies on between two commands (20_memory.md R51, R54): which instructions a command word decodes to, that every
command leaves a response, that QUERY does not look at the response port, and that a LOAD forgets the run before it. -/

namespace Sys2Proof.Machine
open Sys2Proof

variable {c : Params} {s s' t : State.At c}

/-- A command word decodes to a command whose operands come from fields of their width (R61). -/
theorem decodeCmd_wf (w : CommandWord c) : (decodeCmd c w).wf c = true := by
  rcases decodeCmd_cases w with ⟨-, hd⟩ | ⟨-, hd⟩ | ⟨-, hd⟩ | ⟨-, hd⟩ <;> rw [hd]
  · rfl
  · exact load_fits_iff.mpr ⟨(mwOf c w).isLt, (nwOf c w).isLt, (mvalOf c w).isLt, (rvalOf c w).isLt⟩
  · rfl
  · rfl

theorem isCommand_of_wf {i : Instr} (h : i.wf c = true) : i.isCommand = true := by
  rw [Instr.wf, Bool.and_eq_true] at h
  exact h.1

/-- The words of QUERY are those whose `op` field is 0 (R62). -/
theorem decodeCmd_eq_query_iff (w : CommandWord c) : decodeCmd c w = .query ↔ w.toNat % 4 = 0 := by
  rw [← opOf_toNat]
  rcases decodeCmd_cases w with ⟨ho, hd⟩ | ⟨ho, hd⟩ | ⟨ho, hd⟩ | ⟨ho, hd⟩ <;> simp [ho, hd]

/-- An iteration leaves its response on the port, without STATUS (R66, R120). -/
theorem stepRun_answers (h : stepRun s = .next t) : ∃ r, t.resp = some r ∧ r.stat = none := by
  obtain ⟨-, -, -, -, -, -, -, -, -, -, -, ⟨-, -, -, rfl⟩ | ⟨-, rfl⟩⟩ := stepRun_eq_next h <;> exact ⟨_, rfl, rfl⟩

/-- A completed command leaves a response on the port, and STATUS is QUERY's alone (R51, R66). -/
theorem command_answers {i : Instr} (hi : i.isCommand = true) (h : execAt i s = .next t) :
    ∃ r, t.resp = some r ∧ (r.stat.isSome = true ↔ i = .query) := by
  cases i with
  | query =>
    obtain ⟨r, -, -, hstat, rfl⟩ := execQuery_eq_next h
    exact ⟨r, rfl, by simp [hstat]⟩
  | load mw nw mval rval =>
    rcases execLoad_cases mw nw mval rval s with ⟨-, hx⟩ | ⟨-, e, -, hx⟩ | ⟨-, g, -, hx⟩ <;> cases hx.symm.trans h
    · exact ⟨_, rfl, by simp⟩
    · exact ⟨_, rfl, by simp⟩
    · exact ⟨_, s.startRun_resp g mval mw rval, by simp⟩
  | step =>
    rcases execStep_cases s with ⟨-, hx⟩ | ⟨-, hx⟩
    · obtain ⟨r, hr, hstat⟩ := stepRun_answers (hx.symm.trans h)
      exact ⟨r, hr, by simp [hstat]⟩
    · cases hx.symm.trans h
      exact ⟨_, rfl, by simp⟩
  | reserved =>
    cases h
    exact ⟨_, rfl, by simp⟩
  | boothNop00 | boothAddA | boothAddS | boothNop11 | asr => exact absurd hi Bool.false_ne_true

/-- QUERY reads the block and writes the response port, so what stood on that port does not matter to it (R128). -/
theorem execQuery_setResp (s : State.At c) (r : Response c) : execQuery (s.setResp r) = execQuery s := rfl

/-- A second QUERY repeats the first (R54). -/
theorem execQuery_idempotent (h : execQuery s = .next t) : execQuery t = .next t := by
  obtain ⟨r, -, -, -, rfl⟩ := execQuery_eq_next h
  rw [execQuery_setResp, h]

/-- A failed LOAD leaves nothing of the block before it (R92). -/
theorem failLoad_eq_of_inputs_eq (h : s.inputs = s'.inputs) (e : Status) : s.failLoad e = s'.failLoad e := by
  cases s; cases s'; cases h; rfl

/-- An accepted LOAD leaves nothing of the block before it (R90). -/
theorem startRun_eq_of_inputs_eq (h : s.inputs = s'.inputs) (g : Geometry) (mval m rval : Nat) :
    s.startRun g mval m rval = s'.startRun g mval m rval := by
  cases s; cases s'; cases h; rfl

/-- Outside FATAL the outcome of a LOAD does not depend on the block before it (R90, R92). -/
theorem execLoad_eq_of_inputs_eq (hs : s.phase ≠ .fatal) (hs' : s'.phase ≠ .fatal) (h : s.inputs = s'.inputs)
    (m n mval rval : Nat) : execLoad m n mval rval s = execLoad m n mval rval s' := by
  rw [execLoad, execLoad, if_neg hs, if_neg hs']
  cases checkOperands c.wmax mval m rval n with
  | error e => exact congrArg _ (failLoad_eq_of_inputs_eq h e)
  | ok g => exact congrArg _ (startRun_eq_of_inputs_eq h g mval m rval)

end Sys2Proof.Machine
end

section
/-! The statements of 20_memory.md. -/

namespace Sys2Proof
open Sys2Proof.Machine

/-- Settles O37: QUERY writes only the port that it does not read, and the two LOADs have equal outcomes, from which equal rows
go on alike. -/
theorem queryIsIdempotent : Obligations.QueryIsIdempotent := by
  constructor
  · intro s t h
    have hrepeat : exec .query t = .next t := execQuery_idempotent h
    obtain ⟨r, -, -, -, rfl⟩ := execQuery_eq_next h
    exact ⟨rfl, hrepeat⟩
  · intro s s' m n mv rv l hs hs' hin
    have hload : exec (.load m n mv rv) s = exec (.load m n mv rv) s' := execLoad_eq_of_inputs_eq hs hs' hin m n mv rv
    rw [hload]

/-- Settles O47: under the invariant a command completes in a state that meets it again, so its response is one the port can
carry. -/
theorem everyCommandAnswers : Obligations.EveryCommandAnswers := by
  intro s w hinv
  obtain ⟨t, ht⟩ := command_completes w hinv
  obtain ⟨r, hr, hstat⟩ := command_answers (isCommand_of_wf (decodeCmd_wf w)) ht
  obtain ⟨-, -, hresp⟩ := command_inv w hinv ht
  exact ⟨t, r, (exec_eq_execAt _ s).trans ht, hr, by simpa [hr] using hresp, hstat.trans (decodeCmd_eq_query_iff w)⟩

/-- Settles O4: the decoder yields well-formed commands only, and the port hands the decoded command the block without the
word. -/
theorem stepRunsDecodedCommand : Obligations.StepRunsDecodedCommand := by
  intro s w rest h
  refine ⟨decodeCmd_wf w, ?_⟩
  rw [step, portStep, h]
  rfl

end Sys2Proof
end

section
/-! The two directions of the codec (30_encoding.md R61 to R65, R69). -/

namespace Sys2Proof

variable {c : Params}

/-- `op` is the word's two lowest bits, as a bit pattern and as a number (R61). -/
theorem opOf_eq_iff (w : CommandWord c) (o : BitVec 2) : opOf c w = o ↔ w.toNat % 4 = o.toNat := by
  rw [← opOf_toNat, BitVec.toNat_inj]

theorem decodeCmd_eq_load_of_mod_four {w : CommandWord c} (h : w.toNat % 4 = 1) :
    decodeCmd c w = .load (mwOf c w).toNat (nwOf c w).toNat (mvalOf c w).toNat (rvalOf c w).toNat := by
  simp [decodeCmd, (opOf_eq_iff w 1#2).mpr h]

theorem decodeCmd_eq_step_of_mod_four {w : CommandWord c} (h : w.toNat % 4 = 2) : decodeCmd c w = .step := by
  simp [decodeCmd, (opOf_eq_iff w 2#2).mpr h]

theorem decodeCmd_eq_reserved_of_mod_four {w : CommandWord c} (h : w.toNat % 4 = 3) : decodeCmd c w = .reserved := by
  simp [decodeCmd, (opOf_eq_iff w 3#2).mpr h]

/-- LOAD's operands come back from an encoded word as they were put in (R63). -/
theorem decodeCmd_encodeCmd_load (mw nw : Count c) (mval rval : Value c) :
    decodeCmd c (encodeCmd c 1#2 mw nw mval rval) = .load mw.toNat nw.toNat mval.toNat rval.toNat := by
  simp [decodeCmd]

/-- The five fields cover the word: "No bits are unassigned" (R61). -/
theorem encodeCmd_fields (w : CommandWord c) :
    encodeCmd c (opOf c w) (mwOf c w) (nwOf c w) (mvalOf c w) (rvalOf c w) = w := by
  have hrval : w.toNat / 2 ^ 2 / 2 ^ c.wf / 2 ^ c.wf / 2 ^ c.pbMax < 2 ^ c.pbMax := by
    rw [← div_rval, Nat.div_lt_iff_lt_mul (by positivity), ← pow_add]
    exact lt_of_lt_of_eq w.isLt (congrArg _ (by simp only [Params.cw]; omega))
  apply BitVec.eq_of_toNat_eq
  rw [encodeCmd_toNat, opOf_toNat, mwOf_toNat, nwOf_toNat, mvalOf_toNat, rvalOf_toNat, div_nw, div_mval, div_rval,
    Nat.mod_eq_of_lt hrval, Nat.mod_add_div, Nat.mod_add_div, Nat.mod_add_div]
  exact Nat.mod_add_div w.toNat 4

/-- The decoder reads every row's bits back, in each of the table's three formats (R61, R69). -/
theorem decodeWord_encode {i : Instr} (h : i.fits c = true) : decodeWord c (encode c i) = i := by
  cases i with
  | load mw nw mval rval =>
    obtain ⟨hmw, hnw, hmval, hrval⟩ := load_fits_iff.mp h
    rw [encode, decodeWord, decodeCmd_encodeCmd_load]
    simp [Nat.mod_eq_of_lt hmw, Nat.mod_eq_of_lt hnw, Nat.mod_eq_of_lt hmval, Nat.mod_eq_of_lt hrval]
  | query | step | reserved => simp [encode, decodeWord, decodeCmd]
  | boothNop00 | boothAddA | boothAddS | boothNop11 | asr => rfl

/-- The rows with a command word are the commands of R60. -/
theorem isCommand_iff_encode_eq_cmd (i : Instr) : i.isCommand = true ↔ ∃ w, encode c i = .cmd w := by
  cases i <;> simp [Instr.isCommand, encode]

end Sys2Proof
end

section
/-! The operands of a LOAD: what an assembler line puts in its fields (30_encoding.md R72), and what the block does with an invalid
one (R63, 40_load.md R81). -/

namespace Sys2Proof.Machine
open Sys2Proof

variable {c : Params}

/-- The value of a bit string fits its length (R72, R141). -/
theorem bitsValue_lt_two_pow_length (b : List Bool) : bitsValue b < 2 ^ b.length := by
  induction b with
  | nil => decide
  | cons x xs ih =>
    have hx : x.toNat * 2 ^ xs.length ≤ 1 * 2 ^ xs.length := Nat.mul_le_mul_right _ x.toNat_le
    rw [bitsValue, List.length_cons, pow_succ]
    omega

/-- A string no longer than the value field has a length that fits the width field (R61, R144). -/
theorem toCount_length_toNat {b : List Bool} (h : b.length ≤ c.pbMax) : (toCount b.length : Count c).toNat = b.length :=
  toCount_toNat_of_le (h.trans c.pbMax_le_wmax)

/-- A string no longer than the value field has a value that fits it (R61, R144). -/
theorem toValue_bitsValue_toNat {b : List Bool} (h : b.length ≤ c.pbMax) :
    (toValue (bitsValue b) : Value c).toNat = bitsValue b :=
  Nat.mod_eq_of_lt (lt_of_lt_of_le (bitsValue_lt_two_pow_length b) (Nat.pow_le_pow_right (by decide) h))

theorem assemble_load {mbits rbits : List Bool} (hm : mbits.length ≤ c.pbMax) (hr : rbits.length ≤ c.pbMax) :
    assemble c (.load mbits rbits) = some [loadWord c mbits rbits] := by
  have hwf : (AsmLine.load mbits rbits).wf c = true := by simp [AsmLine.wf, bitsFit, hm, hr]
  rw [assemble, if_pos hwf]

theorem invalidOperand_eq_true_iff (v w : Nat) : invalidOperand v w = true ↔ ¬ (1 ≤ w ∧ v < 2 ^ w) := by
  simp only [invalidOperand, Bool.or_eq_true, beq_iff_eq, decide_eq_true_eq]
  omega

/-- The first two checks of a LOAD are R81's for its two operands, whatever WMAX is. -/
theorem checkOperands_of_not_validOperands (wmax : Nat) {m n mval rval : Nat} (h : ¬ ValidOperands m n mval rval) :
    checkOperands wmax mval m rval n = .error .invalidOperand := by
  simp only [checkOperands, invalidOperand_eq_true_iff]
  by_cases hm : 1 ≤ m ∧ mval < 2 ^ m
  · have hn : ¬ (1 ≤ n ∧ rval < 2 ^ n) := fun hn => h ⟨hm.1, hm.2, hn⟩
    rw [if_neg (not_not.mpr hm), if_pos hn]
  · rw [if_pos hm]

/-- Outside FATAL a LOAD with an invalid operand fails with INVALID_OPERAND (R81, R92). -/
theorem execLoad_of_not_validOperands {s : State.At c} (hs : s.phase ≠ .fatal) {m n mval rval : Nat}
    (h : ¬ ValidOperands m n mval rval) : execLoad m n mval rval s = .next (s.failLoad .invalidOperand) := by
  rw [execLoad, if_neg hs, checkOperands_of_not_validOperands c.wmax h]

end Sys2Proof.Machine
end

section
/-! What each field of the response port holds (30_encoding.md R66): a record slot, a valid bit. -/

namespace Sys2Proof.Machine
open Sys2Proof

variable {c : Params}

theorem portRecord_of_getElem? {l : List (TraceRecord c)} {i : Nat} {x : TraceRecord c} (h : l[i]? = some x) :
    portRecord l i = ⟨x.label.code, x.value⟩ := by
  rw [portRecord, h]

theorem portRecord_of_length_le {l : List (TraceRecord c)} {i : Nat} (h : l.length ≤ i) : portRecord l i = ⟨0, 0⟩ := by
  rw [portRecord, List.getElem?_eq_none h]

@[simp] theorem validBit_none {α : Type} : validBit (none : Option α) = 0 := rfl

@[simp] theorem validBit_some {α : Type} (x : α) : validBit (some x) = 1 := rfl

/-- `nrec` counts the records, since a response has at most three (R66). -/
theorem Response.toPort_nrec_toNat {r : Response c} (h : r.recs.length ≤ 3) : r.toPort.nrec.toNat = r.recs.length :=
  Nat.mod_eq_of_lt (Nat.lt_succ_of_le h)

theorem Response.toPort_of_product_none {r : Response c} (h : r.product = none) :
    r.toPort.pvalid = 0 ∧ r.toPort.product = 0 := by
  simp [Response.toPort, h]

theorem Response.toPort_of_product_some {r : Response c} {v : Value c} (h : r.product = some v) :
    r.toPort.pvalid = 1 ∧ r.toPort.product = v := by
  simp [Response.toPort, h]

theorem Response.toPort_of_stat_none {r : Response c} (h : r.stat = none) : r.toPort.qvalid = 0 ∧ r.toPort.stat = 0 := by
  simp [Response.toPort, h]

theorem Response.toPort_of_stat_some {r : Response c} {v : StatusWord c} (h : r.stat = some v) :
    r.toPort.qvalid = 1 ∧ r.toPort.stat = v := by
  simp [Response.toPort, h]

theorem Response.toPort_of_regs_none {r : Response c} (h : r.regs = none) :
    r.toPort.rvalid = 0 ∧ r.toPort.qa = 0 ∧ r.toPort.qs = 0 ∧ r.toPort.qp = 0 := by
  simp [Response.toPort, h]

theorem Response.toPort_of_regs_some {r : Response c} {q : QueryRegs c} (h : r.regs = some q) :
    r.toPort.rvalid = 1 ∧ r.toPort.qa = q.qa ∧ r.toPort.qs = q.qs ∧ r.toPort.qp = q.qp := by
  simp [Response.toPort, h]

end Sys2Proof.Machine
end

section
/-! The statements of 30_encoding.md. -/

namespace Sys2Proof
open Sys2Proof.Machine

/-- Settles O7: the round trip row by row, the rows with a command word, and the operands that a word's fields can hold. -/
theorem decodeOfEncodeIsIdentity : Obligations.DecodeOfEncodeIsIdentity :=
  fun _ => ⟨fun _ => decodeWord_encode, isCommand_iff_encode_eq_cmd, decodeCmd_wf⟩

/-- Settles O6: each field as a number is its slice of the word, and a value too wide for its width is an invalid operand. -/
theorem loadFieldsReadStraight : Obligations.LoadFieldsReadStraight := by
  intro c w h
  have hd := decodeCmd_eq_load_of_mod_four h
  refine ⟨_, _, _, _, hd, mwOf_toNat w, nwOf_toNat w, mvalOf_toNat w, rvalOf_toNat w, fun s hs hwide => ?_⟩
  rw [hd]
  refine ⟨s.failLoad .invalidOperand, execLoad_of_not_validOperands hs ?_, rfl⟩
  rintro ⟨-, hmval, -, hrval⟩
  rcases hwide with hm | hn
  · exact Nat.not_le.mpr hmval hm
  · exact Nat.not_le.mpr hrval hn

/-- Settles O8: the encoder puts the four operands and `op` = 1 back, and the five fields are the whole word. -/
theorem loadWordIsItsEncoding : Obligations.LoadWordIsItsEncoding := by
  intro c w h
  have hop : opOf c w = 1#2 := (opOf_eq_iff w 1#2).mpr h
  have hw := encodeCmd_fields w
  rw [hop] at hw
  rw [decodeCmd_eq_load_of_mod_four h, encode]
  simp only [BitVec.ofNat_toNat, BitVec.setWidth_eq]
  exact congrArg _ hw

/-- Settles O43: the codes by their definitions, and the port field by field, by whether the response has the field. -/
theorem invalidPortFieldsAreZero : Obligations.InvalidPortFieldsAreZero := by
  refine ⟨⟨rfl, rfl, rfl, rfl, rfl⟩, ⟨rfl, rfl, rfl, rfl, rfl, rfl⟩, fun c r hlen => ?_⟩
  have hnrec := Response.toPort_nrec_toNat hlen
  have hempty : ∀ i, r.toPort.nrec.toNat < i + 1 → portRecord r.recs i = ⟨0, 0⟩ := fun i hi =>
    portRecord_of_length_le (by omega)
  exact ⟨rfl, hnrec, fun _ => portRecord_of_getElem?, fun _ => portRecord_of_getElem?, fun _ => portRecord_of_getElem?,
    hempty 0, hempty 1, hempty 2,
    Response.toPort_of_product_none, Response.toPort_of_stat_none, Response.toPort_of_regs_none,
    fun _ => Response.toPort_of_product_some, fun _ => Response.toPort_of_stat_some, fun _ => Response.toPort_of_regs_some⟩

/-- Settles O58: the line's one word is `loadWord`, whose fields hold the lengths and the values uncut. -/
theorem assembledLoadDecodes : Obligations.AssembledLoadDecodes := by
  intro c mbits rbits hm hr
  refine ⟨loadWord c mbits rbits, assemble_load hm hr, ?_⟩
  rw [loadWord, decodeCmd_encodeCmd_load, toCount_length_toNat hm, toCount_length_toNat hr, toValue_bitsValue_toNat hm,
    toValue_bitsValue_toNat hr]

/-- Settles O5: one law of the decoder for each value of `op`. -/
theorem decodeSelectsByOp : Obligations.DecodeSelectsByOp := fun _ w =>
  ⟨(decodeCmd_eq_query_iff w).mpr, fun h => ⟨_, _, _, _, decodeCmd_eq_load_of_mod_four h⟩,
    decodeCmd_eq_step_of_mod_four, decodeCmd_eq_reserved_of_mod_four⟩

/-- Settles O9: the assembler and the decoder evaluated on the lines and words of R74. -/
theorem encodedExamples : Obligations.EncodedExamples := by
  unfold Obligations.EncodedExamples
  decide

/-- Settles O38: `op` = 3 decodes to the reserved code, whose effect is `reject`, a write of the response port alone. -/
theorem reservedCodeRejected : Obligations.ReservedCodeRejected :=
  ⟨fun _ => decodeCmd_eq_reserved_of_mod_four, fun _ => rfl⟩

end Sys2Proof
end

section
/-! The outcomes of a LOAD: in FATAL, of valid operands that exceed WMAX or fit it (40_load.md R83, R88, R91), and what each
outcome answers; and that no row leaves FATAL. -/

namespace Sys2Proof.Machine
open Sys2Proof

variable {c : Params} {s t : State.At c} {m n mval rval : Nat}

/-- Valid operands leave only the width check (R80, R83). -/
theorem checkOperands_of_validOperands (wmax : Nat) (h : ValidOperands m n mval rval) :
    checkOperands wmax mval m rval n =
      if wmax < 2 * (m + n) + 1 then .error .widthOverflow else .ok (geometryOf m n) := by
  obtain ⟨hm, hmval, hn, hrval⟩ := h
  have hmok : ¬ invalidOperand mval m = true := fun hi => (invalidOperand_eq_true_iff mval m).mp hi ⟨hm, hmval⟩
  have hrok : ¬ invalidOperand rval n = true := fun hi => (invalidOperand_eq_true_iff rval n).mp hi ⟨hn, hrval⟩
  rw [checkOperands, if_neg hmok, if_neg hrok]
  rfl

/-- Outside FATAL a LOAD of valid operands whose geometry exceeds WMAX fails with WIDTH_OVERFLOW (R83, R92). -/
theorem execLoad_of_totalBits_gt (hs : s.phase ≠ .fatal) (h : ValidOperands m n mval rval)
    (hW : c.wmax < 2 * (m + n) + 1) : execLoad m n mval rval s = .next (s.failLoad .widthOverflow) := by
  rw [execLoad, if_neg hs, checkOperands_of_validOperands c.wmax h, if_pos hW]

/-- Outside FATAL a LOAD of valid operands whose geometry fits WMAX starts a run (R88). -/
theorem execLoad_of_totalBits_le (hs : s.phase ≠ .fatal) (h : ValidOperands m n mval rval)
    (hW : 2 * (m + n) + 1 ≤ c.wmax) :
    execLoad m n mval rval s = .next (s.startRun (geometryOf m n) mval m rval) := by
  rw [execLoad, if_neg hs, checkOperands_of_validOperands c.wmax h, if_neg (Nat.not_lt.mpr hW)]

theorem execLoad_of_fatal (hs : s.phase = .fatal) : execLoad m n mval rval s = .next s.reject := by
  rw [execLoad, if_pos hs]

theorem execStep_of_fatal (hs : s.phase = .fatal) : execStep s = .next s.reject := by
  rw [execStep, if_neg (by simp [hs])]

/-- FATAL is left by the reset input alone: LOAD and STEP are rejected there, and no other row writes PHASE (R91, R165). -/
theorem execAt_phase_of_fatal {i : Instr} (hs : s.phase = .fatal) (h : execAt i s = .next t) : t.phase = .fatal := by
  cases i with
  | load mw nw mv rv =>
    cases (execLoad_of_fatal hs).symm.trans h
    exact hs
  | step =>
    cases (execStep_of_fatal hs).symm.trans h
    exact hs
  | _ =>
    obtain ⟨_, _, rfl⟩ := execAt_frame (by simp) (by simp) h
    exact hs

/-- Outside FATAL a LOAD answers a status other than REJECTED, and leaves a run where it is `OK`, else IDLE and no run
(R90, R92). -/
theorem execLoad_accepted_or_failed (hs : s.phase ≠ .fatal) (m n mval rval : Nat) :
    ∃ t r, execLoad m n mval rval s = .next t ∧ t.resp = some r ∧ r.status ≠ .rejected ∧
      (r.status = .ok ∧ t.phase = .run ∨ r.status ≠ .ok ∧ t.phase = .idle ∧ t.void) := by
  rcases execLoad_cases m n mval rval s with ⟨hf, -⟩ | ⟨-, e, hc, hx⟩ | ⟨-, g, -, hx⟩
  · exact absurd hf hs
  · obtain ⟨hrej, hok⟩ : e ≠ .rejected ∧ e ≠ .ok := by
      rcases checkOperands_error hc with rfl | rfl <;> decide
    exact ⟨_, _, hx, rfl, hrej, .inr ⟨hok, rfl, rfl, rfl, rfl, rfl, rfl, rfl, rfl⟩⟩
  · exact ⟨_, _, hx, s.startRun_resp g mval m rval, by simp, .inl ⟨rfl, rfl⟩⟩

end Sys2Proof.Machine
end

section
/-! The register builder (40_load.md R84 to R87): its values as numbers, the registers they leave in a block, and the multiplicand
next to its negation in the window (R85). -/

namespace Sys2Proof.Machine
open Sys2Proof

variable {c : Params} {m n mval rval : Nat}

/-! ### Its values -/

/-- A value of `pb` bits at offset `hb` reaches exactly to `W` bits: the window above `hb` is `pb` bits wide (R82, R106). -/
theorem two_pow_totalBits (pb : Nat) : 2 ^ (2 * pb + 1) = 2 ^ pb * 2 ^ (pb + 1) := by
  rw [← pow_add]
  congr 1
  omega

/-- The mask to `W` removes nothing of a value of at most `pb` bits at offset `hb` (R87). -/
theorem mask_shifted_of_lt {v pb : Nat} (h : v < 2 ^ pb) : mask (v * 2 ^ (pb + 1)) (2 * pb + 1) = v * 2 ^ (pb + 1) := by
  apply mask_of_lt
  rw [two_pow_totalBits]
  exact Nat.mul_lt_mul_of_pos_right h (by positivity)

/-- The top bit of a register that holds `v` at offset `hb` is the top bit of the window (R106). -/
theorem bitAt_shifted_top {v pb : Nat} (h : v < 2 ^ pb) :
    bitAt (v * 2 ^ (pb + 1)) (2 * pb) = if 2 ^ pb ≤ 2 * v then 1 else 0 := by
  have hv : 2 * v < 2 ^ (pb + 1) := by rw [pow_succ]; omega
  have hbit : bitAt (v * 2 ^ (pb + 1)) (2 * pb) = bitAt (2 * v) pb := by
    rw [bitAt, bitAt, show v * 2 ^ (pb + 1) = 2 * v * 2 ^ pb by ring, two_mul pb, pow_add,
      Nat.mul_div_mul_right _ _ (by positivity)]
  rw [hbit]
  exact bitAt_top (Nat.le_add_left 1 pb) hv

/-- The negation within `negw` bits as R85 writes it. -/
theorem twosComp_eq_mod {v w : Nat} (h : v < 2 ^ w) : twosComp v w = (2 ^ w - v) % 2 ^ w := by
  rw [twosComp_eq h]
  split
  · simp [*]
  · exact (Nat.mod_eq_of_lt (by omega)).symm

/-- The negation takes at least the multiplicand's width and at most the window's, in both modes (R85). -/
theorem negWidth_geometryOf_bounds (mode : NegMode) (m n : Nat) :
    m ≤ negWidth mode (geometryOf m n) m ∧ negWidth mode (geometryOf m n) m ≤ m + n := by
  cases mode with
  | window => exact ⟨Nat.le_add_right m n, le_rfl⟩
  | operand => exact ⟨le_rfl, Nat.le_add_right m n⟩

/-- A value that fits a width fits a larger one. -/
theorem lt_two_pow_of_le {v a b : Nat} (h : v < 2 ^ a) (hab : a ≤ b) : v < 2 ^ b :=
  lt_of_lt_of_le h (Nat.pow_le_pow_right (by decide) hab)

/-- A multiplicand that fits `m` bits fits the negation width, so its negation is R85's residue. -/
theorem twosComp_negWidth (mode : NegMode) (n : Nat) (h : mval < 2 ^ m) :
    twosComp mval (negWidth mode (geometryOf m n) m) =
      (2 ^ negWidth mode (geometryOf m n) m - mval) % 2 ^ negWidth mode (geometryOf m n) m :=
  twosComp_eq_mod (lt_two_pow_of_le h (negWidth_geometryOf_bounds mode m n).1)

theorem buildA_geometryOf (n : Nat) (h : mval < 2 ^ m) : buildA (geometryOf m n) mval = mval * 2 ^ (m + n + 1) :=
  mask_shifted_of_lt (lt_two_pow_of_le h (Nat.le_add_right m n))

theorem buildS_geometryOf (mode : NegMode) (n : Nat) (h : mval < 2 ^ m) :
    buildS mode (geometryOf m n) mval m = twosComp mval (negWidth mode (geometryOf m n) m) * 2 ^ (m + n + 1) := by
  refine mask_shifted_of_lt (lt_two_pow_of_le ?_ (negWidth_geometryOf_bounds mode m n).2)
  rw [twosComp_negWidth mode n h]
  exact Nat.mod_lt _ (by positivity)

theorem buildP_geometryOf (m : Nat) (h : rval < 2 ^ n) : buildP (geometryOf m n) rval = 2 * rval := by
  have hlt : rval * 2 < 2 ^ (n + 1) := by rw [pow_succ]; omega
  rw [buildP, mask_of_lt (lt_two_pow_of_le hlt (by simp only [geometryOf]; omega)), Nat.mul_comm]

/-! ### The registers of an accepted LOAD as numbers -/

section Loaded

variable (hW : 2 * (m + n) + 1 ≤ c.wmax)
include hW

/-- The geometry registers hold R82's values uncut. -/
theorem loadedRegs_geometry_toNat (mval rval : Nat) :
    (loadedRegs c m n mval rval).pb.toNat = m + n ∧ (loadedRegs c m n mval rval).W.toNat = 2 * (m + n) + 1 ∧
      (loadedRegs c m n mval rval).hb.toNat = m + n + 1 :=
  ⟨toCount_toNat_of_le (by omega : m + n ≤ c.wmax), toCount_toNat_of_le hW,
    toCount_toNat_of_le (by omega : m + n + 1 ≤ c.wmax)⟩

/-- A value masked to `totalBits` is stored uncut (R26). -/
theorem toReg_mask_totalBits_toNat (v : Nat) :
    (toReg (mask v (2 * (m + n) + 1)) : Reg c).toNat = mask v (2 * (m + n) + 1) :=
  toReg_toNat_of_lt hW (mask_lt _ _)

theorem loadedRegs_A_toNat (rval : Nat) (h : mval < 2 ^ m) :
    (loadedRegs c m n mval rval).A.toNat = mval * 2 ^ (m + n + 1) :=
  (toReg_mask_totalBits_toNat hW _).trans (buildA_geometryOf n h)

theorem loadedRegs_S_toNat (rval : Nat) (h : mval < 2 ^ m) :
    (loadedRegs c m n mval rval).S.toNat =
      (2 ^ negWidth c.negMode (geometryOf m n) m - mval) % 2 ^ negWidth c.negMode (geometryOf m n) m *
        2 ^ (m + n + 1) := by
  rw [← twosComp_negWidth c.negMode n h, ← buildS_geometryOf c.negMode n h]
  exact toReg_mask_totalBits_toNat hW _

theorem loadedRegs_S_toNat_of_window (rval : Nat) (h : mval < 2 ^ m) (hmode : c.negMode = .window) :
    (loadedRegs c m n mval rval).S.toNat = (2 ^ (m + n) - mval) % 2 ^ (m + n) * 2 ^ (m + n + 1) := by
  simp only [loadedRegs_S_toNat hW rval h, hmode, negWidth, geometryOf]

theorem loadedRegs_S_toNat_of_operand (rval : Nat) (h : mval < 2 ^ m) (hmode : c.negMode = .operand) :
    (loadedRegs c m n mval rval).S.toNat = (2 ^ m - mval) % 2 ^ m * 2 ^ (m + n + 1) := by
  simp only [loadedRegs_S_toNat hW rval h, hmode, negWidth]

theorem loadedRegs_P_toNat (mval : Nat) (h : rval < 2 ^ n) : (loadedRegs c m n mval rval).P.toNat = 2 * rval :=
  (toReg_mask_totalBits_toNat hW _).trans (buildP_geometryOf m h)

end Loaded

/-! ### The negated multiplicand in its window (R85) -/

/-- The multiplicand and its negation within `pb` bits, both at offset `hb`, sum to 0 modulo `2^W`. -/
theorem shifted_add_negated_mod {v pb : Nat} (h : v ≤ 2 ^ pb) :
    (v * 2 ^ (pb + 1) + (2 ^ pb - v) % 2 ^ pb * 2 ^ (pb + 1)) % 2 ^ (2 * pb + 1) = 0 := by
  have hsum : (v + (2 ^ pb - v) % 2 ^ pb) % 2 ^ pb = 0 := by
    rw [Nat.add_mod_mod, Nat.add_sub_cancel' h, Nat.mod_self]
  rw [← Nat.add_mul, two_pow_totalBits, Nat.mul_mod_mul_right, hsum, Nat.zero_mul]

/-- The negation of a value that is not 0 and at most half of the window has the window's top bit set, and is the
two's-complement encoding of the negative. -/
theorem negated_shifted_signed {v pb : Nat} (h0 : v ≠ 0) (h : 2 * v ≤ 2 ^ pb) :
    bitAt ((2 ^ pb - v) % 2 ^ pb * 2 ^ (pb + 1)) (2 * pb) = 1 ∧
      signedOf ((2 ^ pb - v) % 2 ^ pb * 2 ^ (pb + 1)) (2 * pb + 1) = -((v : Int) * 2 ^ (pb + 1)) := by
  have hlt : 2 ^ pb - v < 2 ^ pb := by omega
  have htop : bitAt ((2 ^ pb - v) * 2 ^ (pb + 1)) (2 * pb) = 1 := by
    rw [bitAt_shifted_top hlt, if_pos (by omega)]
  rw [Nat.mod_eq_of_lt hlt]
  refine ⟨htop, ?_⟩
  rw [signedOf, Nat.add_sub_cancel, if_pos htop]
  have hW : (2 : Int) ^ (2 * pb + 1) = 2 ^ pb * 2 ^ (pb + 1) := by exact_mod_cast two_pow_totalBits pb
  rw [hW]
  push_cast [show v ≤ 2 ^ pb by omega]
  ring

/-- A value of fewer than `pb` bits at offset `hb` leaves the top bit clear. -/
theorem bitAt_shifted_top_of_lt {v pb : Nat} (h : 2 * v < 2 ^ pb) : bitAt (v * 2 ^ (pb + 1)) (2 * pb) = 0 := by
  rw [bitAt_shifted_top (by omega), if_neg (Nat.not_le.mpr h)]

/-- A value of `m` bits takes less than half of a window that has room for another operand (R82). -/
theorem two_mul_lt_two_pow_add {v : Nat} (h : v < 2 ^ m) (hn : 1 ≤ n) : 2 * v < 2 ^ (m + n) :=
  lt_two_pow_of_le (by rw [pow_succ]; omega : 2 * v < 2 ^ (m + 1)) (Nat.add_le_add_left hn m)

end Sys2Proof.Machine
end

section
/-! The statements of 40_load.md. -/

namespace Sys2Proof
open Sys2Proof.Machine

/-- Settles O10: an accepted LOAD is `startRun`, whose registers are `loadedRegs`; this hardware negates within the window. -/
theorem acceptedLoadResult : Obligations.AcceptedLoadResult := by
  intro s m n mv rv hs hvalid hpb
  have hW := (Params.totalBits_le_wmax_iff Config.hw_legal _).mpr hpb
  have hload : execLoad m n mv rv s = _ := execLoad_of_totalBits_le hs hvalid hW
  obtain ⟨-, hmv, -, hrv⟩ := hvalid
  obtain ⟨hpbv, hWv, hhbv⟩ := loadedRegs_geometry_toNat hW mv rv
  have hA := loadedRegs_A_toNat hW rv hmv
  have hS := loadedRegs_S_toNat_of_window hW rv hmv rfl
  have hP := loadedRegs_P_toNat hW mv hrv
  rw [← hhbv, ← hpbv] at hS
  rw [← hhbv] at hA
  exact ⟨_, _, _, _, _, _, hpbv, hWv.trans (by rw [hpbv]), hhbv.trans (by rw [hpbv]), hA, hS, hP, hload⟩

/-- Settles O11: S is the residue at the mode's negation width; the window is `pb` bits wide and the multiplicand takes less than
half of it. -/
theorem negatedMultiplicand : Obligations.NegatedMultiplicand := by
  refine ⟨rfl, fun c s m n mv rv hc hs hvalid hpb => ?_⟩
  have hW := (Params.totalBits_le_wmax_iff hc _).mpr hpb
  have hload := execLoad_of_totalBits_le hs hvalid hW
  obtain ⟨-, hmv, hn, -⟩ := hvalid
  obtain ⟨-, hWv, hhbv⟩ := loadedRegs_geometry_toNat hW mv rv
  obtain ⟨-, hWr, hhbr, hAr, hSr, -, -⟩ := startRun_holds_loadedRegs s m n mv rv
  have hhalf := two_mul_lt_two_pow_add hmv hn
  refine ⟨_, _, _, _, _, hload, hWr, hhbr, hAr, hSr, hhbv, hWv, fun hmode => ?_, fun hmode => ?_⟩
  · have hA := loadedRegs_A_toNat hW rv hmv
    have hS := loadedRegs_S_toNat_of_window hW rv hmv hmode
    rw [hWv, hhbv, hA, hS]
    exact ⟨rfl, shifted_add_negated_mod (by omega), fun h0 => BitVec.eq_of_toNat_eq (by rw [hS]; simp [h0]),
      fun h0 => negated_shifted_signed h0 hhalf.le⟩
  · rw [hWv, hhbv, loadedRegs_S_toNat_of_operand hW rv hmv hmode]
    exact ⟨rfl, bitAt_shifted_top_of_lt (two_mul_lt_two_pow_add (Nat.mod_lt _ (by positivity)) hn)⟩

/-- Settles O12: each unmasked value fits the `W` bits of the geometry. -/
theorem builderMasksRemoveNothing : Obligations.BuilderMasksRemoveNothing := fun mode m n _ _ _ hmv _ hrv =>
  ⟨buildA_geometryOf n hmv, buildS_geometryOf mode n hmv, buildP_geometryOf m hrv⟩

/-- Settles O13: the operand check fails before the width check, and `failLoad` writes every field but the inputs. -/
theorem loadInvalidOperandFails : Obligations.LoadInvalidOperandFails := fun _ _ _ _ _ hs hinvalid =>
  execLoad_of_not_validOperands hs hinvalid

/-- Settles O14: the width check against WMAX is the one against PB_MAX, and `failLoad` writes every field but the inputs. -/
theorem loadWidthOverflowFails : Obligations.LoadWidthOverflowFails := by
  intro s m n mv rv hs hvalid hW
  have hpb : ¬ m + n ≤ Config.hw.pbMax := fun h =>
    Nat.not_le.mpr hW ((Params.totalBits_le_wmax_iff Config.hw_legal _).mpr h)
  exact ⟨Nat.not_le.mp hpb, execLoad_of_totalBits_gt hs hvalid hW⟩

/-- Settles O15: LOAD is `reject` in FATAL, and no row leaves it. -/
theorem loadRejectedInFatal : Obligations.LoadRejectedInFatal :=
  ⟨fun _ _ _ _ _ hs => execLoad_of_fatal hs, fun s _ _ hs h => execAt_phase_of_fatal hs ((exec_eq_execAt _ s).symm.trans h)⟩

/-- Settles O17: `failLoad` and `startRun` keep nothing of the block but the inputs, and outside FATAL a LOAD is one of the
two. -/
theorem loadForgetsEarlierRun : Obligations.LoadForgetsEarlierRun := fun _ _ m n mv rv hs hs' hin =>
  ⟨execLoad_eq_of_inputs_eq hs hs' hin m n mv rv, execLoad_accepted_or_failed hs m n mv rv⟩

end Sys2Proof
end

section
/-! The two's-complement value of a bit pattern (00_scope.md R10): its range and residue, what a sum modulo `2^w` and the
shift do to it, and the upper window of P (41_accumulator.md R106, R107). -/

namespace Sys2Proof.Machine
open Sys2Proof

variable {v w : Nat}

theorem signedOf_modEq (v w : Nat) : signedOf v w ≡ v [ZMOD 2 ^ w] := by
  rw [signedOf]
  split
  · exact Int.sub_emod_right _ _
  · rfl

/-- A pattern of `w` bits, by its upper half. -/
theorem signedOf_of_lt (hw : 1 ≤ w) (h : v < 2 ^ w) :
    signedOf v w = if 2 ^ (w - 1) ≤ v then (v : Int) - 2 ^ w else v := by
  rw [signedOf, bitAt_top hw h]
  by_cases hv : 2 ^ (w - 1) ≤ v <;> simp [hv]

/-- The two's-complement value is the balanced residue. -/
theorem signedOf_eq_bmod (hw : 1 ≤ w) (h : v < 2 ^ w) : signedOf v w = (v : Int).bmod (2 ^ w) := by
  have hres := Int.modEq_iff_dvd.mp (signedOf_modEq v w).symm
  have hpow := Nat.two_pow_pred_mul_two hw
  refine ((Int.bmod_eq_iff (by positivity)).mpr ⟨?_, ?_, by exact_mod_cast hres⟩).symm
  all_goals
    rw [signedOf_of_lt hw h]
    zify at hpow h ⊢
    split <;> omega

/-- A sum that stays within the signed range is exact (R104, R107). -/
theorem signedOf_mask_add {a b : Nat} (hw : 1 ≤ w) (ha : a < 2 ^ w) (hb : b < 2 ^ w)
    (hlo : -(2 ^ w : Int) ≤ (signedOf a w + signedOf b w) * 2) (hhi : (signedOf a w + signedOf b w) * 2 < 2 ^ w) :
    signedOf (mask (a + b) w) w = signedOf a w + signedOf b w := by
  have hsum : ((mask (a + b) w : Nat) : Int).bmod (2 ^ w) = (signedOf a w + signedOf b w).bmod (2 ^ w) := by
    rw [signedOf_eq_bmod hw ha, signedOf_eq_bmod hw hb, ← Int.add_bmod, mask, Int.natCast_mod, Int.emod_bmod, Nat.cast_add]
  rw [signedOf_eq_bmod hw (mask_lt _ _), hsum]
  exact Int.bmod_eq_of_le_mul_two (by exact_mod_cast hlo) (by exact_mod_cast hhi)

/-- A number in the lower half is its own two's-complement value. -/
theorem signedOf_of_two_mul_lt (hw : 1 ≤ w) (h : 2 * v < 2 ^ w) : signedOf v w = v := by
  have hpow := Nat.two_pow_pred_mul_two hw
  rw [signedOf_of_lt hw (by omega), if_neg (by omega)]

theorem shiftOf_lt (hw : 1 ≤ w) (h : v < 2 ^ w) : shiftOf v w < 2 ^ w := by
  have hpow := Nat.two_pow_pred_mul_two hw
  rw [shiftOf, bitAt_top hw h]
  split <;> omega

/-- The shift halves the two's-complement value and floors it (R110). -/
theorem signedOf_shiftOf (hw : 1 ≤ w) (h : v < 2 ^ w) : signedOf (shiftOf v w) w = signedOf v w / 2 := by
  have hpow := Nat.two_pow_pred_mul_two hw
  have hlt := shiftOf_lt hw h
  rw [signedOf_of_lt hw hlt, signedOf_of_lt hw h]
  rw [shiftOf, bitAt_top hw h] at hlt ⊢
  by_cases hv : 2 ^ (w - 1) ≤ v
  · simp only [hv, if_true] at hlt ⊢
    rw [if_pos (by omega)]
    zify at hpow ⊢
    omega
  · simp only [hv, if_false] at hlt ⊢
    rw [if_neg (by omega)]
    omega

/-- Below the sign bit the shift is the half. -/
theorem shiftOf_mod_two_pow {j : Nat} (hj : j < w) : shiftOf v w % 2 ^ j = v % 2 ^ (j + 1) / 2 := by
  have htop : 2 ^ j ∣ bitAt v (w - 1) * 2 ^ (w - 1) := Dvd.dvd.mul_left (pow_dvd_pow 2 (by omega)) _
  obtain ⟨d, hd⟩ := htop
  rw [shiftOf, hd, Nat.add_mul_mod_self_left, pow_succ', Nat.mod_mul_right_div_self]

/-- The signed upper window is the signed value with the lower window dropped (R106). -/
theorem upperWindow_eq_ediv {p pb : Nat} (hpb : 1 ≤ pb) (h : p < 2 ^ (2 * pb + 1)) :
    upperWindow p pb = signedOf p (2 * pb + 1) / 2 ^ (pb + 1) := by
  have hpos : 0 < 2 ^ (pb + 1) := by positivity
  rw [two_pow_totalBits] at h
  have hlt : p / 2 ^ (pb + 1) < 2 ^ pb := Nat.div_lt_of_lt_mul (by rwa [Nat.mul_comm])
  have hslice : slice p (2 * pb) (pb + 1) = p / 2 ^ (pb + 1) := by
    rw [slice, show 2 * pb + 1 - (pb + 1) = pb by omega, Nat.mod_eq_of_lt hlt]
  have htop : bitAt (p / 2 ^ (pb + 1)) (pb - 1) = bitAt p (2 * pb) := by
    rw [bitAt, bitAt, Nat.div_div_eq_div_mul, ← pow_add, show pb + 1 + (pb - 1) = 2 * pb by omega]
  rw [upperWindow, hslice, signedOf, signedOf, htop, Nat.add_sub_cancel]
  split
  · rw [show (2 : Int) ^ (2 * pb + 1) = 2 ^ pb * 2 ^ (pb + 1) by exact_mod_cast two_pow_totalBits pb,
      Int.sub_mul_ediv_right _ _ (by positivity)]
    push_cast
    rfl
  · push_cast
    rfl

/-- A signed value within `M` windows has an upper window of magnitude at most `M` (R107). -/
theorem upperWindow_natAbs_le {p pb M : Nat} (hpb : 1 ≤ pb) (h : p < 2 ^ (2 * pb + 1))
    (hlo : -((M : Int) * 2 ^ (pb + 1)) ≤ signedOf p (2 * pb + 1))
    (hhi : signedOf p (2 * pb + 1) < ((M : Int) + 1) * 2 ^ (pb + 1)) : (upperWindow p pb).natAbs ≤ M := by
  have hpos : (0 : Int) < 2 ^ (pb + 1) := by positivity
  have hlo' : -(M : Int) ≤ upperWindow p pb := by
    rw [upperWindow_eq_ediv hpb h, Int.le_ediv_iff_mul_le hpos, Int.neg_mul]
    exact hlo
  have hhi' : upperWindow p pb < (M : Int) + 1 := by
    rw [upperWindow_eq_ediv hpb h]
    exact Int.ediv_lt_of_lt_mul hpos hhi
  omega

end Sys2Proof.Machine
end

section
/-! The accumulator (41_accumulator.md R100 to R106): the row that a pair selects, an addition on defined registers, and what an
addition does to the value and to the windows of P. -/

namespace Sys2Proof.Machine
open Sys2Proof

variable {c : Params}

/-- The dispatch performs the row that the pair decodes to (R69, R100). -/
theorem boothDispatch_eq_execAt_decodePair (pair : BitVec 2) (s : State.At c) :
    boothDispatch pair s = execAt (decodePair pair) s := by
  rcases boothDispatch_cases pair s with ⟨rfl, h⟩ | ⟨rfl, h⟩ | ⟨rfl, h⟩ | ⟨rfl, h⟩ <;> exact h

/-- The next state of an addition while a response is under construction (R102, R103). -/
theorem addInto_of_resp {l : Label} {x : RunReg} {v : Option (Reg c)} {s : State.At c} {p a : Reg c} {w : Count c}
    {r : Response c} (hp : s.P = some p) (ha : v = some a) (hw : s.W = some w) (hr : s.resp = some r) :
    addInto l x v s = .next { s with P := some (accumulate p a w.toNat),
                                     resp := some (r.addRecord l (accumulate p a w.toNat)) } := by
  have hcur : (s.setP (accumulate p a w.toNat)).currentResp = r := State.At.currentResp_of_resp hr
  rw [addInto_of_defined hp ha hw, State.At.emit, hcur]
  rfl

/-- Every value of a width register of this hardware is at most WMAX. -/
theorem Config.hw_count_le_wmax (w : Count Config.hw) : w.toNat ≤ Config.hw.wmax := by
  have h : w.toNat < 64 := w.isLt.trans_eq (by decide : 2 ^ Config.hw.wf = 64)
  exact Nat.le_of_lt_succ h

/-- A sum modulo `2^w` has the two's-complement value of the summands' sum, modulo `2^w` (R104). -/
theorem signedOf_sum_emod (p a w : Nat) :
    (signedOf ((p + a) % 2 ^ w) w - (signedOf p w + signedOf a w)) % 2 ^ w = 0 := by
  have hsum : signedOf ((p + a) % 2 ^ w) w ≡ (p : Int) + a [ZMOD 2 ^ w] := by
    refine (signedOf_modEq _ _).trans ?_
    push_cast
    exact Int.mod_modEq _ _
  have hdiff := hsum.sub ((signedOf_modEq p w).add (signedOf_modEq a w))
  rw [sub_self] at hdiff
  exact hdiff

/-- An addend that is 0 below `hb` leaves the sum's low `hb` bits (R106). -/
theorem sum_mod_two_pow_of_addend {p a hb w : Nat} (ha : a % 2 ^ hb = 0) (hw : hb ≤ w) :
    (p + a) % 2 ^ w % 2 ^ hb = p % 2 ^ hb := by
  obtain ⟨d, rfl⟩ := Nat.dvd_of_mod_eq_zero ha
  rw [Nat.mod_mod_of_dvd _ (pow_dvd_pow 2 hw), Nat.add_mul_mod_self_left]

/-- An addend that is 0 below `hb` adds above it, modulo the window above (R106). -/
theorem sum_div_two_pow_of_addend {p a hb pb w : Nat} (ha : a % 2 ^ hb = 0) (hw : w = hb + pb) :
    (p + a) % 2 ^ w / 2 ^ hb = (p / 2 ^ hb + a / 2 ^ hb) % 2 ^ pb := by
  rw [hw, pow_add, Nat.mod_mul_right_div_self, Nat.add_div_of_dvd_left (Nat.dvd_of_mod_eq_zero ha)]

/-- The logical width of a legal run is at least 1 and fits the registers' storage (R22, R26). -/
theorem RunRegs.width_of_legal {r : RunRegs c} (hl : r.legal) : 1 ≤ r.W.toNat ∧ r.W.toNat ≤ c.wmax := by
  obtain ⟨hpb, hmax, hW, -⟩ := hl
  simp only [Params.pbMax] at hmax
  omega

/-- An addition in a legal run completes with the sum modulo `2^W`, unsigned and two's-complement, and writes neither PHASE nor
ERR (R102 to R104). -/
theorem addInto_of_holds {s : State.At c} {r : RunRegs c} (hr : s.holds r) (hl : r.legal) {a : Reg c} {v : Option (Reg c)}
    (ha : v = some a) (l : Label) (x : RunReg) :
    ∃ t q, addInto l x v s = .next t ∧ t.P = some q ∧ t.phase = s.phase ∧ t.err = s.err ∧
      q.toNat = (r.P.toNat + a.toNat) % 2 ^ r.W.toNat ∧
      (signedOf q.toNat r.W.toNat - (signedOf r.P.toNat r.W.toNat + signedOf a.toNat r.W.toNat)) % 2 ^ r.W.toNat = 0 := by
  obtain ⟨-, hW, -, -, -, hP, -⟩ := hr
  have hsum := accumulate_toNat r.P a (RunRegs.width_of_legal hl).2
  exact ⟨_, _, addInto_of_defined hP ha hW, rfl, rfl, rfl, hsum, hsum ▸ signedOf_sum_emod _ _ _⟩

/-- An addition in a legal run of an addend that is 0 below `hb` keeps the lower window and the pair, and adds in the upper
window (R106). -/
theorem addInto_windows {s : State.At c} {r : RunRegs c} (hr : s.holds r) (hl : r.legal) {a : Reg c} {v : Option (Reg c)}
    (ha : v = some a) (hlow : a.toNat % 2 ^ r.hb.toNat = 0) (l : Label) (x : RunReg) :
    ∃ t q, addInto l x v s = .next t ∧ t.P = some q ∧
      q.toNat % 2 ^ r.hb.toNat = r.P.toNat % 2 ^ r.hb.toNat ∧ pairOf q = pairOf r.P ∧
      q.toNat / 2 ^ r.hb.toNat = (r.P.toNat / 2 ^ r.hb.toNat + a.toNat / 2 ^ r.hb.toNat) % 2 ^ r.pb.toNat := by
  obtain ⟨t, q, ht, hq, -, -, hsum, -⟩ := addInto_of_holds hr hl ha l x
  obtain ⟨hpb, -, hW, hhb, -⟩ := hl
  have hlower : q.toNat % 2 ^ r.hb.toNat = r.P.toNat % 2 ^ r.hb.toNat := by
    rw [hsum]
    exact sum_mod_two_pow_of_addend hlow (by omega)
  refine ⟨t, q, ht, hq, hlower, BitVec.eq_of_toNat_eq ?_, ?_⟩
  · rw [pairOf_toNat, pairOf_toNat]
    exact Nat.ModEq.of_dvd (pow_dvd_pow 2 (by omega : 2 ≤ r.hb.toNat)) hlower
  · rw [hsum]
    exact sum_div_two_pow_of_addend hlow (by omega)

end Sys2Proof.Machine
end

section
/-! A STEP of a legal run (43_sequencer.md R120): the registers that it leaves, and the whole next state. -/

namespace Sys2Proof.Machine
open Sys2Proof

variable {c : Params} {s : State.At c} {r : RunRegs c}

/-- The registers after a STEP that finds `r`: the addition, the shift and the count (R101 to R104, R110, R120). -/
def RunRegs.next (r : RunRegs c) : RunRegs c :=
  { r with P := toReg (shiftOf (sumOf r) r.W.toNat), rem := r.rem - 1 }

@[simp] theorem RunRegs.next_pb (r : RunRegs c) : r.next.pb = r.pb := rfl
@[simp] theorem RunRegs.next_W (r : RunRegs c) : r.next.W = r.W := rfl
@[simp] theorem RunRegs.next_hb (r : RunRegs c) : r.next.hb = r.hb := rfl
@[simp] theorem RunRegs.next_A (r : RunRegs c) : r.next.A = r.A := rfl
@[simp] theorem RunRegs.next_S (r : RunRegs c) : r.next.S = r.S := rfl
@[simp] theorem RunRegs.next_rem (r : RunRegs c) : r.next.rem = r.rem - 1 := rfl

theorem sumOf_lt (r : RunRegs c) : sumOf r < 2 ^ r.W.toNat := mask_lt _ _

theorem toReg_sumOf_toNat (hl : r.legal) : (toReg (sumOf r) : Reg c).toNat = sumOf r :=
  toReg_toNat_of_lt (RunRegs.width_of_legal hl).2 (sumOf_lt r)

theorem RunRegs.next_P_toNat (hl : r.legal) : r.next.P.toNat = shiftOf (sumOf r) r.W.toNat := by
  obtain ⟨hpos, hfit⟩ := RunRegs.width_of_legal hl
  exact toReg_toNat_of_lt hfit (shiftOf_lt hpos (sumOf_lt r))

theorem addendOf_lt (hl : r.legal) : addendOf r < 2 ^ r.W.toNat := by
  obtain ⟨-, -, -, -, hA, hS, -⟩ := hl
  rw [addendOf]
  split_ifs
  · exact hA
  · exact hS
  · positivity

theorem addendOf_mod_two_pow_hb (hl : r.legal) : addendOf r % 2 ^ r.hb.toNat = 0 := by
  obtain ⟨-, -, -, -, -, -, -, hA, hS, -⟩ := hl
  rw [addendOf]
  split_ifs
  · exact hA
  · exact hS
  · exact Nat.zero_mod _

/-- The addition of a STEP is exact where the sum stays within the signed range (R107). -/
theorem signedOf_sumOf (hl : r.legal)
    (hlo : -(2 ^ r.W.toNat : Int) ≤ (signedOf r.P.toNat r.W.toNat + signedOf (addendOf r) r.W.toNat) * 2)
    (hhi : (signedOf r.P.toNat r.W.toNat + signedOf (addendOf r) r.W.toNat) * 2 < 2 ^ r.W.toNat) :
    signedOf (sumOf r) r.W.toNat = signedOf r.P.toNat r.W.toNat + signedOf (addendOf r) r.W.toNat := by
  have hadd := addendOf_lt hl
  have hpos := (RunRegs.width_of_legal hl).1
  obtain ⟨-, -, -, -, -, -, hP, -⟩ := hl
  exact signedOf_mask_add hpos hP hadd hlo hhi

/-- The addition of a STEP leaves the lower window (R106). -/
theorem sumOf_mod_two_pow_hb (hl : r.legal) : sumOf r % 2 ^ r.hb.toNat = r.P.toNat % 2 ^ r.hb.toNat := by
  have hlow := addendOf_mod_two_pow_hb hl
  obtain ⟨-, -, hW, hhb, -⟩ := hl
  exact sum_mod_two_pow_of_addend hlow (by omega)

/-- The pairs 0b00 and 0b11 add nothing (R101). -/
theorem sumOf_of_no_addition (hl : r.legal) (hpair : r.P.toNat % 4 = 0 ∨ r.P.toNat % 4 = 3) : sumOf r = r.P.toNat := by
  obtain ⟨-, -, -, -, -, -, hP, -⟩ := hl
  have hadd : addendOf r = 0 := by rw [addendOf, if_neg (by omega), if_neg (by omega)]
  rw [sumOf, hadd, Nat.add_zero, mask_of_lt hP]

/-- The shift's record is the only one of a STEP that adds nothing (R101, R126). -/
theorem recordsOf_of_no_addition (hl : r.legal) (hpair : r.P.toNat % 4 = 0 ∨ r.P.toNat % 4 = 3) :
    recordsOf r = [⟨.shiftP, toReg (shiftOf r.P.toNat r.W.toNat)⟩] := by
  rw [recordsOf, if_neg (by omega), if_neg (by omega), sumOf_of_no_addition hl hpair]
  rfl

/-- In a legal run the shift of the sum is the next P. -/
theorem asr_sumOf (hl : r.legal) : asr (toReg (sumOf r) : Reg c) r.W.toNat = r.next.P := by
  obtain ⟨hpos, hfit⟩ := RunRegs.width_of_legal hl
  have hsum := toReg_sumOf_toNat hl
  apply BitVec.eq_of_toNat_eq
  rw [asr_toNat _ hpos hfit (hsum.trans_lt (sumOf_lt r)), hsum, RunRegs.next_P_toNat hl, shiftOf]

/-- What `stepRun_eq_next` says of the addition of a STEP, in a legal run: P becomes the sum, with the sum's record. -/
theorem addition_of_legal {q : Reg c} {recs : List (TraceRecord c)} (hl : r.legal)
    (hadd : ((pairOf r.P = 0#2 ∨ pairOf r.P = 3#2) ∧ q = r.P ∧ recs = []) ∨
      (∃ a, pairOf r.P = 1#2 ∧ some r.A = some a ∧ q = accumulate r.P a r.W.toNat ∧ recs = [⟨.pPlusA, q⟩]) ∨
      (∃ a, pairOf r.P = 2#2 ∧ some r.S = some a ∧ q = accumulate r.P a r.W.toNat ∧ recs = [⟨.pPlusS, q⟩])) :
    q = toReg (sumOf r) ∧ recs ++ [⟨.shiftP, r.next.P⟩] = recordsOf r := by
  have hpair : ∀ b, pairOf r.P = b → r.P.toNat % 4 = b.toNat := fun b h => by rw [← pairOf_toNat, h]
  rcases hadd with ⟨hc, rfl, rfl⟩ | ⟨a, hc, ha, rfl, rfl⟩ | ⟨a, hc, ha, rfl, rfl⟩
  · have hnone : r.P.toNat % 4 = 0 ∨ r.P.toNat % 4 = 3 := hc.imp (hpair _) (hpair _)
    refine ⟨BitVec.eq_of_toNat_eq ?_, ?_⟩
    · rw [toReg_sumOf_toNat hl, sumOf_of_no_addition hl hnone]
    · rw [recordsOf_of_no_addition hl hnone, RunRegs.next, sumOf_of_no_addition hl hnone]
      rfl
  all_goals
    obtain rfl := Option.some.inj ha
    simp [recordsOf, sumOf, addendOf, hpair _ hc, RunRegs.next, accumulate]

/-- The whole next state of a STEP in a legal run (R120, R122, R123, R127). -/
theorem execStep_of_holds (hrun : s.phase = .run) (hr : s.holds r) (hl : r.legal) :
    execStep s = .next
      { s with P := some r.next.P, rem := some r.next.rem, phase := if r.next.rem = 0 then .done else .run,
               resp := some { status := .ok, recs := recordsOf r,
                              product := if r.next.rem = 0 then some (productOf r.next.P r.pb) else none,
                              stat := none, regs := none } } := by
  obtain ⟨t, ht⟩ := (completesOrFaults_stepRun s).resolve_right fun ⟨x, hx, _⟩ => not_lacks_of_holds hr x hx
  obtain ⟨hpb, hW, -, hA, hS, hP, hrem⟩ := hr
  obtain ⟨p, w, q, rm, q', recs, hp, hw, hrm, hq', hadd, hend⟩ := stepRun_eq_next ht
  obtain rfl := Option.some.inj (hP.symm.trans hp)
  obtain rfl := Option.some.inj (hW.symm.trans hw)
  obtain rfl := Option.some.inj (hrem.symm.trans hrm)
  rw [hA, hS] at hadd
  obtain ⟨rfl, hrecs⟩ := addition_of_legal hl hadd
  rw [asr_sumOf hl] at hq'
  subst hq'
  rw [execStep, if_pos hrun, ht, RunRegs.next_rem]
  rcases hend with ⟨hz, pb, hpb', rfl⟩ | ⟨hne, rfl⟩
  · obtain rfl := Option.some.inj (hpb.symm.trans hpb')
    rw [if_pos hz, if_pos hz, hrecs]
  · rw [if_neg hne, if_neg hne, hrecs, hrun]

/-- A STEP keeps a run legal (R34). -/
theorem RunRegs.next_legal (hl : r.legal) (hrem : 1 ≤ r.rem.toNat) : r.next.legal := by
  have hP : r.next.P.toNat < 2 ^ r.W.toNat := by
    rw [RunRegs.next_P_toNat hl]
    exact shiftOf_lt (RunRegs.width_of_legal hl).1 (sumOf_lt r)
  exact legal_of_step hl hP (by rw [sub_one_toNat hrem]; omega)

end Sys2Proof.Machine
end

section
/-! A LOAD and its STEPs (43_sequencer.md R124, R130), in both modes: the registers of the run after `k` STEPs, that the block
holds them, and the multiplier bits in the lower window of P. -/

namespace Sys2Proof.Machine
open Sys2Proof

variable {c : Params} {s : State.At c} {m n mval rval k : Nat}

/-- `k + 1` STEPs are `k` STEPs and one more. -/
theorem stepsFrom_succ (k : Nat) (s : State.At c) : stepsFrom (k + 1) s = andThen (stepsFrom k s) (execAt .step) := by
  induction k generalizing s with
  | zero =>
    change andThen (execAt .step s) .next = execAt .step s
    cases execAt .step s <;> rfl
  | succ k ih =>
    calc stepsFrom (k + 2) s
        = andThen (execAt .step s) fun s => andThen (stepsFrom k s) (execAt .step) := congrArg _ (funext ih)
      _ = andThen (stepsFrom (k + 1) s) (execAt .step) := (andThen_assoc _ _ _).symm

theorem runFor_succ (m n mval rval k : Nat) (s : State.At c) :
    runFor m n mval rval (k + 1) s = andThen (runFor m n mval rval k s) (execAt .step) := by
  rw [runFor, runFor, andThen_assoc]
  exact congrArg _ (funext (stepsFrom_succ k))

/-- The registers of a run after `k` STEPs. -/
def runRegs (c : Params) (m n mval rval : Nat) : Nat → RunRegs c
  | 0 => loadedRegs c m n mval rval
  | k + 1 => (runRegs c m n mval rval k).next

/-- No STEP writes the geometry or an addend (R184). -/
theorem runRegs_frame (c : Params) (m n mval rval k : Nat) :
    (runRegs c m n mval rval k).pb = (loadedRegs c m n mval rval).pb ∧
      (runRegs c m n mval rval k).W = (loadedRegs c m n mval rval).W ∧
      (runRegs c m n mval rval k).hb = (loadedRegs c m n mval rval).hb ∧
      (runRegs c m n mval rval k).A = (loadedRegs c m n mval rval).A ∧
      (runRegs c m n mval rval k).S = (loadedRegs c m n mval rval).S := by
  induction k with
  | zero => exact ⟨rfl, rfl, rfl, rfl, rfl⟩
  | succ k ih => exact ih

/-- `r_{k-1}` before iteration `k + 1` is `r_k` (R130). -/
theorem prevBit_succ (r k : Nat) : prevBit r (k + 1) = bitAt r k := by
  rw [prevBit, bitAt, bitAt, pow_succ', Nat.mul_div_mul_left _ _ (by decide)]

/-- The low bits of twice the multiplier, shifted by `k`, are the pair of iteration `k` (R130). -/
theorem two_mul_div_two_pow_mod_four (r k : Nat) : 2 * r / 2 ^ k % 4 = 2 * bitAt r k + prevBit r k := by
  have hhalf : 2 * r / 2 ^ k / 2 = r / 2 ^ k := by
    rw [Nat.div_div_eq_div_mul, Nat.mul_comm (2 ^ k), Nat.mul_div_mul_left _ _ (by decide)]
  rw [prevBit, bitAt, bitAt]
  omega

/-- The geometry of a run as numbers (R82). -/
theorem runRegs_geometry_toNat (hW : 2 * (m + n) + 1 ≤ c.wmax) (k : Nat) :
    (runRegs c m n mval rval k).pb.toNat = m + n ∧ (runRegs c m n mval rval k).W.toNat = 2 * (m + n) + 1 ∧
      (runRegs c m n mval rval k).hb.toNat = m + n + 1 := by
  obtain ⟨hpb, hWk, hhb, -⟩ := runRegs_frame c m n mval rval k
  rw [hpb, hWk, hhb]
  exact loadedRegs_geometry_toNat hW mval rval

section Run

variable (hvalid : ValidOperands m n mval rval) (hW : 2 * (m + n) + 1 ≤ c.wmax)
include hvalid hW

/-- A run is legal up to its last STEP, and rem counts the STEPs left (R34, R120). -/
theorem runRegs_legal (hk : k ≤ m + n) :
    (runRegs c m n mval rval k).legal ∧ (runRegs c m n mval rval k).rem.toNat = m + n - k := by
  induction k with
  | zero =>
    obtain ⟨hm, -, hn, -⟩ := hvalid
    exact ⟨(loadedRegs_legal mval rval hm hn hW).1, (loadedRegs_geometry_toNat hW mval rval).1⟩
  | succ k ih =>
    obtain ⟨hl, hrem⟩ := ih (Nat.le_of_succ_le hk)
    have hpos : 1 ≤ (runRegs c m n mval rval k).rem.toNat := by omega
    refine ⟨RunRegs.next_legal hl hpos, ?_⟩
    rw [runRegs, RunRegs.next_rem, sub_one_toNat hpos, hrem]
    omega

/-- A run ends with its last STEP (R123, R124). -/
theorem runRegs_rem_eq_zero_iff (hk : k ≤ m + n) : (runRegs c m n mval rval k).rem = 0 ↔ k = m + n := by
  obtain ⟨-, hrem⟩ := runRegs_legal hvalid hW hk
  rw [← BitVec.toNat_inj, hrem, BitVec.ofNat_eq_ofNat, BitVec.toNat_ofNat, Nat.zero_mod]
  omega

/-- After a LOAD and `k` STEPs the block holds the registers of the run, in RUN until the last STEP (R120, R124). -/
theorem runFor_holds (hs : s.phase ≠ .fatal) (hk : k ≤ m + n) :
    ∃ t, runFor m n mval rval k s = .next t ∧ t.holds (runRegs c m n mval rval k) ∧
      t.phase = if k = m + n then .done else .run := by
  induction k with
  | zero =>
    have hload := execLoad_of_totalBits_le hs hvalid hW
    obtain ⟨hm, -⟩ := hvalid
    refine ⟨_, by rw [runFor, execAt, hload]; rfl, startRun_holds_loadedRegs s m n mval rval, ?_⟩
    rw [if_neg (by omega), State.At.startRun_phase]
  | succ k ih =>
    obtain ⟨t, ht, hr, hphase⟩ := ih (Nat.le_of_succ_le hk)
    rw [if_neg (by omega)] at hphase
    have hstep := execStep_of_holds hphase hr (runRegs_legal hvalid hW (Nat.le_of_succ_le hk)).1
    obtain ⟨hpb, hWr, hhb, hA, hS, -, -⟩ := hr
    rw [runFor_succ, ht]
    exact ⟨_, hstep, ⟨hpb, hWr, hhb, hA, hS, rfl, rfl⟩, if_congr (runRegs_rem_eq_zero_iff hvalid hW hk) rfl rfl⟩

/-- After `k` STEPs the multiplier bits not yet used stand in P, below the bits that an addition has reached (R130). -/
theorem runRegs_P_mod (hk : k ≤ m + n) :
    (runRegs c m n mval rval k).P.toNat % 2 ^ (m + n + 1 - k) = 2 * rval / 2 ^ k := by
  induction k with
  | zero =>
    obtain ⟨-, -, -, hrv⟩ := hvalid
    have hlt : 2 * rval < 2 ^ (m + n + 1) := by
      have := lt_two_pow_of_le hrv (Nat.le_add_left n m)
      rw [pow_succ]
      omega
    rw [runRegs, loadedRegs_P_toNat hW mval hrv, Nat.sub_zero, Nat.mod_eq_of_lt hlt, pow_zero, Nat.div_one]
  | succ k ih =>
    obtain ⟨hl, -⟩ := runRegs_legal hvalid hW (Nat.le_of_succ_le hk)
    obtain ⟨-, hWk, hhbk⟩ := runRegs_geometry_toNat hW k
    have hsum : sumOf (runRegs c m n mval rval k) % 2 ^ (m + n + 1 - k) = 2 * rval / 2 ^ k := by
      have hdvd : 2 ^ (m + n + 1 - k) ∣ 2 ^ (m + n + 1) := pow_dvd_pow 2 (Nat.sub_le _ _)
      rw [← ih (Nat.le_of_succ_le hk), ← Nat.mod_mod_of_dvd _ hdvd, ← hhbk, sumOf_mod_two_pow_hb hl, hhbk,
        Nat.mod_mod_of_dvd _ hdvd]
    rw [runRegs, RunRegs.next_P_toNat hl, shiftOf_mod_two_pow (by omega),
      show m + n + 1 - (k + 1) + 1 = m + n + 1 - k by omega, hsum, Nat.div_div_eq_div_mul, pow_succ]

/-- Iteration `k` finds the pair `r_k`, `r_{k-1}` (R130). -/
theorem runRegs_P_mod_four (hk : k < m + n) :
    (runRegs c m n mval rval k).P.toNat % 4 = 2 * bitAt rval k + prevBit rval k := by
  have hdvd : 4 ∣ 2 ^ (m + n + 1 - k) := pow_dvd_pow 2 (by omega : 2 ≤ m + n + 1 - k)
  rw [← two_mul_div_two_pow_mod_four, ← runRegs_P_mod hvalid hW hk.le, Nat.mod_mod_of_dvd _ hdvd]

end Run

end Sys2Proof.Machine
end

section
/-! The value of P in a run under WINDOW (41_accumulator.md R107): a closed form after every addition and every shift, and its
bounds. -/

namespace Sys2Proof.Machine
open Sys2Proof

variable {c : Params} {m n mval rval k pb b : Nat}

/-- What P would hold after `k` iterations of a multiplication without recoding: the multiplier bits not yet used, and above them
the multiplicand times the multiplier bits below `k`. -/
def plainPartial (pb mval rval k : Nat) : Nat := 2 * rval / 2 ^ k + mval * (rval % 2 ^ k) * 2 ^ (pb + 1 - k)

/-- The value of P in iteration `k`. Where the pending bit `b` is 1, a block of ones in the multiplier has begun and not yet ended:
its first bit took the multiplicand away at offset `hb`, which the addition at its end gives back. The pending bit is `r_{k-1}`
before the addition of iteration `k` and `r_k` after it (R107, R130). -/
def boothPartial (pb mval rval k b : Nat) : Int := plainPartial pb mval rval k - (mval * b * 2 ^ (pb + 1) : Nat)

theorem plainPartial_lt (hr : rval < 2 ^ pb) (hk : k ≤ pb) : plainPartial pb mval rval k < (mval + 1) * 2 ^ (pb + 1) := by
  have hplace : 2 ^ (pb + 1) = 2 ^ k * 2 ^ (pb + 1 - k) := by rw [← pow_add]; congr 1; omega
  have hunused : 2 * rval / 2 ^ k < 2 ^ (pb + 1 - k) := Nat.div_lt_of_lt_mul (by rw [← hplace, pow_succ]; omega)
  have hused : rval % 2 ^ k + 1 ≤ 2 ^ k := Nat.mod_lt _ (by positivity)
  calc plainPartial pb mval rval k < 2 ^ (pb + 1 - k) + mval * (rval % 2 ^ k) * 2 ^ (pb + 1 - k) :=
        Nat.add_lt_add_right hunused _
    _ ≤ 2 ^ (pb + 1) + mval * 2 ^ k * 2 ^ (pb + 1 - k) :=
        Nat.add_le_add (Nat.pow_le_pow_right (by decide) (Nat.sub_le _ _))
          (Nat.mul_le_mul_right _ (Nat.mul_le_mul_left _ (Nat.le_of_succ_le hused)))
    _ = (mval + 1) * 2 ^ (pb + 1) := by rw [Nat.mul_assoc, ← hplace]; ring

/-- The value stays within the multiplicand at offset `hb` (R107). -/
theorem boothPartial_bounds (hr : rval < 2 ^ pb) (hk : k ≤ pb) (hb : b < 2) :
    -((mval : Int) * 2 ^ (pb + 1)) ≤ boothPartial pb mval rval k b ∧
      boothPartial pb mval rval k b < ((mval : Int) + 1) * 2 ^ (pb + 1) := by
  have hlt : (plainPartial pb mval rval k : Int) < ((mval : Int) + 1) * 2 ^ (pb + 1) := by
    exact_mod_cast plainPartial_lt (mval := mval) hr hk
  have hpending : ((mval * b * 2 ^ (pb + 1) : Nat) : Int) ≤ (mval : Int) * 2 ^ (pb + 1) := by
    have hle : mval * b ≤ mval * 1 := Nat.mul_le_mul_left mval (Nat.le_of_lt_succ hb)
    rw [Nat.mul_one] at hle
    exact_mod_cast Nat.mul_le_mul_right (2 ^ (pb + 1)) hle
  rw [boothPartial]
  constructor <;> omega

/-- The upper window of such a value is no larger than the multiplicand (R107). -/
theorem upperWindow_of_boothPartial {p : Nat} (hpb : 1 ≤ pb) (hp : p < 2 ^ (2 * pb + 1)) (hr : rval < 2 ^ pb) (hk : k ≤ pb)
    (hb : b < 2) (h : signedOf p (2 * pb + 1) = boothPartial pb mval rval k b) : (upperWindow p pb).natAbs ≤ mval := by
  obtain ⟨hlo, hhi⟩ := boothPartial_bounds (mval := mval) hr hk hb
  exact upperWindow_natAbs_le hpb hp (h ▸ hlo) (h ▸ hhi)

/-- The first value is twice the multiplier (R86). -/
theorem boothPartial_zero (pb mval rval : Nat) : boothPartial pb mval rval 0 (prevBit rval 0) = 2 * rval := by
  have hprev : prevBit rval 0 = 0 := by rw [prevBit, bitAt, pow_zero, Nat.div_one, Nat.mul_mod_right]
  simp [boothPartial, plainPartial, hprev, Nat.mod_one]

/-- An addition moves the pending bit from `b` to `b'` (R69, R130). -/
theorem boothPartial_add (pb mval rval k b b' : Nat) :
    boothPartial pb mval rval k b + ((b : Int) - b') * (mval * 2 ^ (pb + 1)) = boothPartial pb mval rval k b' := by
  rw [boothPartial, boothPartial]
  push_cast
  ring

/-- The shift halves the value and takes up one more multiplier bit (R110, R130). -/
theorem boothPartial_div_two (hk : k < pb) :
    boothPartial pb mval rval k (bitAt rval k) / 2 = boothPartial pb mval rval (k + 1) (bitAt rval k) := by
  obtain ⟨d, rfl⟩ : ∃ d, pb = k + d + 1 := ⟨pb - k - 1, by omega⟩
  have hmod : rval % 2 ^ (k + 1) = rval % 2 ^ k + 2 ^ k * bitAt rval k := by rw [Nat.mod_pow_succ, bitAt]
  have hdiv : 2 * rval / 2 ^ (k + 1) = 2 * rval / 2 ^ k / 2 := by rw [Nat.div_div_eq_div_mul, pow_succ]
  rw [boothPartial, boothPartial, plainPartial, plainPartial, hmod, hdiv, show k + d + 1 + 1 - k = d + 2 by omega,
    show k + d + 1 + 1 - (k + 1) = d + 1 by omega]
  generalize bitAt rval k = b, rval % 2 ^ k = u, 2 * rval / 2 ^ k = x
  push_cast
  have hpull : (x : Int) + mval * u * 2 ^ (d + 2) - mval * b * 2 ^ (k + d + 1 + 1) =
      x + 2 * (mval * u * 2 ^ (d + 1) - mval * b * 2 ^ (k + d + 1)) := by ring
  rw [hpull, Int.add_mul_ediv_left _ _ (by decide)]
  ring

/-- What the recoding adds at offset `hb`, from the pair of the iteration: the multiplicand times `r_{k-1} - r_k` (R69, R85). -/
theorem signedOf_addendOf {r : RunRegs c} {bit prev : Nat} (hpair : r.P.toNat % 4 = 2 * bit + prev) (hbit : bit < 2)
    (hprev : prev < 2) (hv : 2 * mval < 2 ^ pb) (hA : r.A.toNat = mval * 2 ^ (pb + 1))
    (hS : r.S.toNat = (2 ^ pb - mval) % 2 ^ pb * 2 ^ (pb + 1)) :
    signedOf (addendOf r) (2 * pb + 1) = ((prev : Int) - bit) * (mval * 2 ^ (pb + 1)) := by
  have hzero : signedOf 0 (2 * pb + 1) = 0 := signedOf_of_two_mul_lt (Nat.le_add_left _ _) (by positivity)
  have hadd : signedOf (mval * 2 ^ (pb + 1)) (2 * pb + 1) = mval * 2 ^ (pb + 1) := by
    rw [signedOf, Nat.add_sub_cancel, bitAt_shifted_top_of_lt hv, if_neg (by decide)]
    push_cast
    rfl
  have hsub : signedOf ((2 ^ pb - mval) % 2 ^ pb * 2 ^ (pb + 1)) (2 * pb + 1) = -(mval * 2 ^ (pb + 1)) := by
    rcases Nat.eq_zero_or_pos mval with rfl | hpos
    · simp [hzero]
    · exact (negated_shifted_signed hpos.ne' hv.le).2
  rw [addendOf, hpair, hA, hS]
  interval_cases bit <;> interval_cases prev
  · simp [hzero]
  · simp [hadd]
  · simp [hsub]
  · simp [hzero]

/-- Twice a value within the multiplicand at offset `hb` stays within the signed range (R107). -/
theorem two_mul_window_le {n : Nat} (hmv : mval < 2 ^ m) (hn : 1 ≤ n) :
    ((mval : Int) + 1) * 2 ^ (m + n + 1) * 2 ≤ 2 ^ (2 * (m + n) + 1) := by
  have hle : 2 * (mval + 1) ≤ 2 ^ (m + n) := by
    calc 2 * (mval + 1) ≤ 2 ^ (m + 1) := by rw [pow_succ']; omega
      _ ≤ 2 ^ (m + n) := Nat.pow_le_pow_right (by decide) (Nat.add_le_add_left hn m)
  have hmul := Nat.mul_le_mul_right (2 ^ (m + n + 1)) hle
  rw [← two_pow_totalBits] at hmul
  zify at hmul
  linarith

section Window

variable {n : Nat} (hvalid : ValidOperands m n mval rval) (hW : 2 * (m + n) + 1 ≤ c.wmax) (hmode : c.negMode = .window)
include hvalid hW hmode

/-- The addition of iteration `k` is exact and moves the pending bit from `r_{k-1}` to `r_k`. -/
theorem signedOf_sumOf_runRegs {r : RunRegs c} (hr : runRegs c m n mval rval k = r) (hk : k < m + n)
    (hP : signedOf r.P.toNat r.W.toNat = boothPartial (m + n) mval rval k (prevBit rval k)) :
    signedOf (sumOf r) r.W.toNat = signedOf r.P.toNat r.W.toNat + signedOf (addendOf r) r.W.toNat ∧
      signedOf (sumOf r) r.W.toNat = boothPartial (m + n) mval rval k (bitAt rval k) := by
  obtain ⟨hl, -⟩ := hr ▸ runRegs_legal hvalid hW hk.le
  have hpair := hr ▸ runRegs_P_mod_four hvalid hW hk
  obtain ⟨-, hmv, hn, hrv⟩ := hvalid
  obtain ⟨-, hWk, -⟩ := hr ▸ runRegs_geometry_toNat (mval := mval) (rval := rval) hW k
  obtain ⟨-, -, -, hA, hS⟩ := hr ▸ runRegs_frame c m n mval rval k
  have hterm := signedOf_addendOf hpair (bitAt_lt_two _ _) (bitAt_lt_two _ _) (two_mul_lt_two_pow_add hmv hn)
    (hA ▸ loadedRegs_A_toNat hW rval hmv) (hS ▸ loadedRegs_S_toNat_of_window hW rval hmv hmode)
  have htotal := boothPartial_add (m + n) mval rval k (prevBit rval k) (bitAt rval k)
  rw [← hP, ← hterm, ← hWk] at htotal
  obtain ⟨hlo, hhi⟩ := boothPartial_bounds (mval := mval) (lt_two_pow_of_le hrv (Nat.le_add_left n m)) hk.le
    (bitAt_lt_two rval k)
  have hpos : (0 : Int) < 2 ^ (m + n + 1) := by positivity
  have hrange := two_mul_window_le hmv hn
  rw [← hWk] at hrange
  have hexact := signedOf_sumOf hl (by rw [htotal]; linarith) (by rw [htotal]; linarith)
  exact ⟨hexact, hexact.trans htotal⟩

/-- Under WINDOW P holds the Booth partial product before every iteration and after the last (R107, R130). -/
theorem signedOf_runRegs_P (hk : k ≤ m + n) :
    signedOf (runRegs c m n mval rval k).P.toNat (runRegs c m n mval rval k).W.toNat =
      boothPartial (m + n) mval rval k (prevBit rval k) := by
  induction k with
  | zero =>
    obtain ⟨hm, -, hn, hrv⟩ := hvalid
    obtain ⟨-, hWk, -⟩ := runRegs_geometry_toNat (mval := mval) (rval := rval) hW 0
    have hlt : 2 * (2 * rval) < 2 ^ (2 * (m + n) + 1) :=
      lt_two_pow_of_le (by rw [pow_add]; omega : 2 * (2 * rval) < 2 ^ (n + 2)) (by omega)
    rw [boothPartial_zero, hWk, runRegs, loadedRegs_P_toNat hW mval hrv,
      signedOf_of_two_mul_lt (Nat.le_add_left _ _) hlt]
    push_cast
    rfl
  | succ k ih =>
    obtain ⟨hl, -⟩ := runRegs_legal hvalid hW (Nat.le_of_succ_le hk)
    obtain ⟨-, hsum⟩ := signedOf_sumOf_runRegs hvalid hW hmode rfl hk (ih (Nat.le_of_succ_le hk))
    rw [runRegs, RunRegs.next_P_toNat hl, RunRegs.next_W, signedOf_shiftOf (RunRegs.width_of_legal hl).1 (sumOf_lt _), hsum,
      boothPartial_div_two hk, prevBit_succ]

end Window

end Sys2Proof.Machine
end

section
/-! The statements of 41_accumulator.md. -/

namespace Sys2Proof
open Sys2Proof.Machine

/-- Settles O51: before iteration `k` P encodes `boothPartial` with `r_{k-1}` pending and after its addition with `r_k`, and both
stay within the multiplicand at offset `hb`, less than half of the signed range. -/
theorem windowNeverOverflows : Obligations.WindowNeverOverflows := by
  intro c s m n mv rv hc hmode hs hvalid hpb k hk
  have hW := (Params.totalBits_le_wmax_iff hc _).mpr hpb
  have ⟨hm, _, _, hrv⟩ := hvalid
  have hrv' := lt_two_pow_of_le hrv (Nat.le_add_left n m)
  obtain ⟨t, ht, hr, -⟩ := runFor_holds hvalid hW hs hk
  obtain ⟨hl, -⟩ := runRegs_legal hvalid hW hk
  obtain ⟨hpbk, hWk, -⟩ := runRegs_geometry_toNat (mval := mv) (rval := rv) hW k
  have hP := signedOf_runRegs_P hvalid hW hmode hk
  have hwindow : ∀ {p b : Nat}, p < 2 ^ (runRegs c m n mv rv k).W.toNat → b < 2 →
      signedOf p (runRegs c m n mv rv k).W.toNat = boothPartial (m + n) mv rv k b →
      (upperWindow p (runRegs c m n mv rv k).pb.toNat).natAbs ≤ mv := by
    rw [hWk, hpbk]
    exact fun hp hb hvalue => upperWindow_of_boothPartial (by omega) hp hrv' hk hb hvalue
  have ⟨_, _, _, _, _, _, hPlt, _⟩ := hl
  refine ⟨t, _, ht, hr, hl, hwindow hPlt (bitAt_lt_two _ _) hP, fun hlt => ?_⟩
  obtain ⟨hexact, hvalue⟩ := signedOf_sumOf_runRegs hvalid hW hmode rfl hlt hP
  exact ⟨hexact, hwindow (sumOf_lt _) (bitAt_lt_two _ _) hvalue⟩

/-- Settles O18: the two rows are `.next s`, and where the pair adds nothing the sum is P itself. -/
theorem noAdditionPairs : Obligations.NoAdditionPairs := by
  refine ⟨fun s p _ => ⟨rfl, rfl⟩, fun s r hrun hr hl hpair => ?_⟩
  have hstep : exec .step s = _ := execStep_of_holds hrun hr hl
  refine ⟨_, r.next.P, _, hstep, rfl, ?_, rfl, ?_⟩
  · rw [RunRegs.next_P_toNat hl, sumOf_of_no_addition hl hpair]
  · rw [recordsOf_of_no_addition hl hpair, RunRegs.next, sumOf_of_no_addition hl hpair]

/-- Settles O21: an addition writes P and the response only, and a residue modulo `2^W` has one two's-complement value modulo
`2^W`. -/
theorem additionWrapsWithoutTrace : Obligations.AdditionWrapsWithoutTrace := by
  intro s r hr hl
  have ⟨_, _, _, hA, hS, _, _⟩ := hr
  exact ⟨addInto_of_holds hr hl hA .pPlusA .A, addInto_of_holds hr hl hS .pPlusS .S⟩

/-- Settles O22: A and S of a legal run are 0 below `hb`. -/
theorem additionKeepsLowerWindow : Obligations.AdditionKeepsLowerWindow := by
  intro s r hr hl
  have ⟨_, _, _, hA, hS, _, _⟩ := hr
  have ⟨_, _, _, _, _, _, _, hAlow, hSlow, _⟩ := hl
  exact ⟨addInto_windows hr hl hA hAlow .pPlusA .A, addInto_windows hr hl hS hSlow .pPlusS .S⟩

/-- Settles O19: `addInto` of A, whose sum is masked to at most WMAX bits. -/
theorem addMultiplicandResult : Obligations.AddMultiplicandResult := fun _ p a w _ hp ha hw hr =>
  ⟨_, accumulate_toNat p a (Config.hw_count_le_wmax w), addInto_of_resp hp ha hw hr⟩

/-- Settles O20: `addInto` of S, whose sum is masked to at most WMAX bits. -/
theorem addNegatedMultiplicandResult : Obligations.AddNegatedMultiplicandResult := fun _ p n w _ hp hn hw hr =>
  ⟨_, accumulate_toNat p n (Config.hw_count_le_wmax w), addInto_of_resp hp hn hw hr⟩

/-- Settles O28: the dispatch performs the row that the pair decodes to. -/
theorem stepDispatchesOnPair : Obligations.StepDispatchesOnPair := by
  intro s p hrun hp
  calc exec .step s = stepRun s := if_pos hrun
    _ = andThen (boothDispatch (pairOf p) s.openResponse) fun s1 => andThen (execAsr s1) finishStep := by
        rw [stepRun, hp, readReg_some]
    _ = _ := by
        rw [boothDispatch_eq_execAt_decodePair, ← exec_eq_execAt]
        rfl

end Sys2Proof
end

section
/-! The shifter (42_shifter.md): the shift and the source's procedure, bit by bit. -/

namespace Sys2Proof.Machine
open Sys2Proof

variable {c : Params} {k w i : Nat} {v t : BitVec k}

theorem bitAt_eq_toNat_testBit (v i : Nat) : bitAt v i = (v.testBit i).toNat :=
  (Nat.toNat_testBit v i).symm

/-- R26: a value below `2^W` has no bit at or above W. -/
theorem getLsbD_eq_false_of_lt (h : v.toNat < 2 ^ w) (hi : w ≤ i) : v.getLsbD i = false :=
  Nat.testBit_lt_two_pow (h.trans_le (Nat.pow_le_pow_right (by decide) hi))

/-- `{v[W-1], v[W-1:1]}` (R110): each bit is the one above it, and bit `W-1` stays. -/
theorem asr_getLsbD (hw : 1 ≤ w) (hk : w ≤ k) (h : v.toNat < 2 ^ w) :
    (asr v w).getLsbD i = if i = w - 1 then v.getLsbD (w - 1) else v.getLsbD (i + 1) := by
  have hhalf : v.toNat / 2 < 2 ^ (w - 1) := by
    have := Nat.two_pow_pred_mul_two hw
    omega
  simp only [← BitVec.testBit_toNat]
  rw [asr_toNat v hw hk h, bitAt_eq_toNat_testBit, Nat.add_comm, Nat.mul_comm, Nat.testBit_two_pow_mul_add _ hhalf,
    Nat.testBit_div_two, Nat.testBit_bool_toNat]
  rcases Nat.lt_trichotomy i (w - 1) with hi | rfl | hi
  · rw [if_pos hi, if_neg hi.ne]
  · simp
  · have hhigh : v.toNat.testBit (i + 1) = false := getLsbD_eq_false_of_lt h (by omega)
    rw [if_neg (by omega), if_neg hi.ne', hhigh, decide_eq_false (by omega), Bool.false_and]

/-- The flip makes bit `W-1` equal to bit `W-2` and leaves every other bit (R111). -/
theorem signFix_getLsbD (hw : 2 ≤ w) (hk : w ≤ k) :
    (signFix t w).getLsbD i = if i = w - 1 then t.getLsbD (w - 2) else t.getLsbD i := by
  by_cases htop : t.getLsbD (w - 2) = t.getLsbD (w - 1)
  · rw [signFix, if_neg (by simpa using htop)]
    split
    next hi => rw [hi, htop]
    next => rfl
  · rw [signFix, if_pos (by simpa using htop), BitVec.getLsbD_xor, BitVec.getLsbD_twoPow]
    split
    next hi =>
      rw [hi, decide_eq_true (by omega : w - 1 < k), decide_eq_true rfl, Bool.and_true, Bool.xor_true]
      exact (Bool.eq_not_of_ne htop).symm
    next hi => rw [decide_eq_false (Ne.symm hi), Bool.and_false, Bool.xor_false]

/-- After a plain shift that is right at every bit but `W-1`, the flip gives the shift, whatever stands there (R111). -/
theorem signFix_eq_asr (hw : 2 ≤ w) (hk : w ≤ k) (h : v.toNat < 2 ^ w)
    (ht : ∀ j < k, j ≠ w - 1 → t.getLsbD j = v.getLsbD (j + 1)) : signFix t w = asr v w := by
  refine BitVec.eq_of_getLsbD_eq fun i hi => ?_
  rw [signFix_getLsbD hw hk, asr_getLsbD (by omega) hk h]
  split
  · rw [ht (w - 2) (by omega) (by omega), show w - 2 + 1 = w - 1 by omega]
  · exact ht i hi ‹_›

/-- The arithmetic plain shift by one over the whole storage, bit by bit. -/
theorem sshiftRight_one_getLsbD (hi : i < k) :
    (v.sshiftRight 1).getLsbD i = if i = k - 1 then v.getLsbD (k - 1) else v.getLsbD (i + 1) := by
  rw [BitVec.getLsbD_sshiftRight, decide_eq_false (by omega), Bool.not_false, Bool.true_and, Nat.add_comm 1 i,
    BitVec.msb_eq_getLsbD_last]
  split
  · rw [if_neg (by omega)]
  · rw [if_pos (by omega)]

/-- Over storage of exactly W bits the shift is the arithmetic shift (R112). -/
theorem asr_eq_sshiftRight {v : BitVec w} (hw : 1 ≤ w) : asr v w = v.sshiftRight 1 :=
  BitVec.eq_of_getLsbD_eq fun _ hi => by rw [asr_getLsbD hw le_rfl v.isLt, sshiftRight_one_getLsbD hi]

/-- The shift of a value does not depend on the width of the storage that holds it (R112). -/
theorem asr_ofNat_toNat (hw : 1 ≤ w) (hk : w ≤ k) (h : v.toNat < 2 ^ w) :
    (asr (BitVec.ofNat w v.toNat) w).toNat = (asr v w).toNat := by
  have hv : (BitVec.ofNat w v.toNat).toNat = v.toNat := Nat.mod_eq_of_lt h
  rw [asr_toNat _ hw le_rfl (BitVec.isLt _), hv, asr_toNat v hw hk h]

/-- Where its registers are defined, a shift completes. -/
theorem execAsr_of_defined {s : State.At c} {p : Reg c} {n : Count c} (hp : s.P = some p) (hn : s.W = some n) :
    execAsr s = .next ((s.setP (asr p n.toNat)).emit .shiftP (asr p n.toNat)) := by
  simp [execAsr, hp, hn]

/-- The next state of a shift while a response is under construction (R110). -/
theorem execAsr_of_resp {s : State.At c} {p : Reg c} {n : Count c} {r : Response c} (hp : s.P = some p)
    (hn : s.W = some n) (hr : s.resp = some r) :
    execAsr s = .next { s with P := some (asr p n.toNat), resp := some (r.addRecord .shiftP (asr p n.toNat)) } := by
  have hcur : (s.setP (asr p n.toNat)).currentResp = r := State.At.currentResp_of_resp hr
  rw [execAsr_of_defined hp hn, State.At.emit, hcur]
  rfl

/-- The shift's record is the last of a STEP (R110, R126). -/
theorem recordsOf_getLast? {r : RunRegs c} : (recordsOf r).getLast? = some ⟨.shiftP, r.next.P⟩ := by
  rw [recordsOf, List.getLast?_concat, RunRegs.next]

end Sys2Proof.Machine
end

section
/-! The statements of 42_shifter.md. -/

namespace Sys2Proof
open Sys2Proof.Machine

/-- Settles O24: the shift's value is `shiftOf`, which halves and floors the signed value, and its record ends `recordsOf`. -/
theorem shiftResult : Obligations.ShiftResult := by
  refine ⟨fun s p w r hp hw hr hpos hlt => ?_, fun s r hrun hr hl => ?_⟩
  · have hvalue : (asr p w.toNat).toNat = shiftOf p.toNat w.toNat := asr_toNat p hpos (Config.hw_count_le_wmax w) hlt
    refine ⟨asr p w.toNat, hvalue, ?_, execAsr_of_resp hp hw hr⟩
    rw [hvalue, signedOf_shiftOf hpos hlt]
  · have hstep : exec .step s = _ := execStep_of_holds hrun hr hl
    exact ⟨_, r.next.P, _, hstep, rfl, rfl, recordsOf_getLast?⟩

/-- Settles O25: both plain shifts move every bit but `W-1` into place; the arithmetic one copies in `v[k-1]`, which is bit
`W-1` over storage of exactly W bits and else 0, as `v[k]` is. -/
theorem sourceShiftProcedure : Obligations.SourceShiftProcedure := by
  intro k w v hw hk h
  constructor <;> refine signFix_eq_asr hw hk h fun j hj hne => ?_
  · rw [BitVec.getLsbD_ushiftRight, Nat.add_comm]
  · rw [sshiftRight_one_getLsbD hj]
    split
    next hlast => rw [getLsbD_eq_false_of_lt h (by omega), getLsbD_eq_false_of_lt h (by omega)]
    next => rfl

/-- Settles O26: the shift of the same value over storage of exactly W bits is the arithmetic shift. -/
theorem shiftMatchesTrueRegister : Obligations.ShiftMatchesTrueRegister := by
  intro k w v hw hk h
  have hpos : 1 ≤ w := by omega
  refine ⟨asr_lt v w, ?_, ?_⟩
  · rw [← asr_eq_sshiftRight hpos, asr_ofNat_toNat hpos hk h]
  · calc (asr v w).toNat % 2 = shiftOf v.toNat w % 2 ^ 1 := by rw [asr_toNat v hpos hk h]; rfl
      _ = v.toNat % 2 ^ (1 + 1) / 2 := shiftOf_mod_two_pow hw
      _ = bitAt v.toNat 1 := Nat.mod_mul_right_div_self ..

/-- Settles O27: nine values, each computed. -/
theorem shiftCornerCases : Obligations.ShiftCornerCases := by
  unfold Obligations.ShiftCornerCases
  decide

end Sys2Proof
end

section
/-! A run as the host sees it (43_sequencer.md R120, R123, R130): the response of each STEP, the DONE state, and the records of all
the responses. -/

namespace Sys2Proof.Machine
open Sys2Proof

variable {c : Params} {s t : State.At c} {m n mval rval k : Nat}

/-- The product port's value (R125, R127). -/
theorem productOf_eq (p : Reg c) (pb : Count c) :
    productOf p pb = BitVec.ofNat c.pbMax (p.toNat / 2 % 2 ^ pb.toNat) := by
  rw [productOf, toValue, slice, pow_one, Nat.add_sub_cancel]

/-- The value that a response carries as the product is `P[pb:1]` (R125, R127). -/
theorem productOf_toNat (p : Reg c) {pb : Count c} (hpb : pb.toNat ≤ c.pbMax) :
    (productOf p pb).toNat = p.toNat / 2 % 2 ^ pb.toNat := by
  have hlt : p.toNat / 2 % 2 ^ pb.toNat < 2 ^ c.pbMax := lt_two_pow_of_le (Nat.mod_lt _ (by positivity)) hpb
  rw [productOf_eq, BitVec.toNat_ofNat, Nat.mod_eq_of_lt hlt]

/-- The response of the STEP of iteration `k` (R126, R127). -/
def stepResponse (c : Params) (m n mval rval k : Nat) : Response c :=
  let r := runRegs c m n mval rval k
  { status := .ok, recs := recordsOf r, product := if r.next.rem = 0 then some (productOf r.next.P r.pb) else none,
    stat := none, regs := none }

@[simp] theorem stepResponse_recs : (stepResponse c m n mval rval k).recs = recordsOf (runRegs c m n mval rval k) := rfl

/-- The labels of a STEP's records, by the pair of the P that it finds (R126). -/
theorem recordsOf_labels (r : RunRegs c) :
    (recordsOf r).map (·.label) =
      if r.P.toNat % 4 = 1 then [Label.pPlusA, .shiftP] else if r.P.toNat % 4 = 2 then [.pPlusS, .shiftP]
      else [.shiftP] := by
  rw [recordsOf]
  split_ifs <;> rfl

/-- What the host sees of a command that completes. -/
theorem issue_of_next {i : Instr} {r : Response c} (h : execAt i s = .next t) (hr : t.resp = some r) :
    issue i s = some (t, r) := by
  simp [issue, h, hr]

/-- A RUN whose LOAD is accepted goes on to its STEPs (R73). -/
theorem issueRun_of_ok {r : Response c} {rs : List (Response c)} {t' : State.At c}
    (hload : issue (.load m n mval rval) s = some (t, r)) (hok : r.status = .ok)
    (hsteps : issueSteps (m + n) t = some (t', rs)) : issueRun m n mval rval s = some (t', r :: rs) := by
  simp [issueRun, hload, hok, hsteps]

/-- One more iteration adds where the multiplier bit changes (R130). -/
theorem changes_succ (r k : Nat) : changes r (k + 1) = changes r k + if bitAt r k = prevBit r k then 0 else 1 := by
  rw [changes, changes, List.range_succ, List.filter_append, List.length_append]
  by_cases h : bitAt r k = prevBit r k <;> simp [h]

section Run

variable (hvalid : ValidOperands m n mval rval) (hW : 2 * (m + n) + 1 ≤ c.wmax)
include hvalid hW

/-- The STEP of iteration `k`: the registers, the phase and the response that it leaves (R120, R123). -/
theorem execStep_of_holds_runRegs (hk : k < m + n) (hphase : s.phase = if k = m + n then .done else .run)
    (hr : s.holds (runRegs c m n mval rval k)) :
    ∃ t, execStep s = .next t ∧ t.holds (runRegs c m n mval rval (k + 1)) ∧
      (t.phase = if k + 1 = m + n then .done else .run) ∧ t.resp = some (stepResponse c m n mval rval k) := by
  rw [if_neg hk.ne] at hphase
  have hstep := execStep_of_holds hphase hr (runRegs_legal hvalid hW hk.le).1
  obtain ⟨hpb, hWr, hhb, hA, hS, -, -⟩ := hr
  exact ⟨_, hstep, ⟨hpb, hWr, hhb, hA, hS, rfl, rfl⟩, if_congr (runRegs_rem_eq_zero_iff hvalid hW hk) rfl rfl, rfl⟩

/-- The response of the last STEP carries the product of the P that it leaves (R123, R127). -/
theorem stepResponse_product_last (hk : k + 1 = m + n) :
    (stepResponse c m n mval rval k).product =
      some (productOf (runRegs c m n mval rval (m + n)).P (runRegs c m n mval rval (m + n)).pb) := by
  have hrem := (runRegs_rem_eq_zero_iff hvalid hW hk.le).mpr hk
  rw [← hk]
  exact if_pos hrem

/-- A LOAD and `m + n` STEPs leave DONE, and the last response carries the product (R123, R124, R127). -/
theorem runFor_done (hs : s.phase ≠ .fatal) :
    ∃ t r, runFor m n mval rval (m + n) s = .next t ∧ t.phase = .done ∧ t.holds (runRegs c m n mval rval (m + n)) ∧
      t.resp = some r ∧
      r.product = some (productOf (runRegs c m n mval rval (m + n)).P (runRegs c m n mval rval (m + n)).pb) := by
  obtain ⟨k, hk⟩ : ∃ k, k + 1 = m + n := ⟨m + n - 1, Nat.sub_add_cancel (hvalid.1.trans (Nat.le_add_right m n))⟩
  obtain ⟨t, ht, hr, hphase⟩ := runFor_holds hvalid hW hs (by omega : k ≤ m + n)
  obtain ⟨t', ht', hr', hphase', hresp⟩ := execStep_of_holds_runRegs hvalid hW (by omega) hphase hr
  rw [hk] at hr'
  rw [if_pos hk] at hphase'
  exact ⟨t', _, by rw [← hk, runFor_succ, ht]; exact ht', hphase', hr', hresp, stepResponse_product_last hvalid hW hk⟩

/-- The rest of a run, issued by the host from iteration `k`: the responses of its STEPs, and DONE (R73, R124). -/
theorem issueSteps_of_holds_runRegs {j : Nat} (hkj : k + j = m + n) (hphase : s.phase = if k = m + n then .done else .run)
    (hr : s.holds (runRegs c m n mval rval k)) :
    ∃ t, issueSteps j s = some (t, (List.range' k j).map (stepResponse c m n mval rval)) ∧ t.phase = .done := by
  induction j generalizing k s with
  | zero => exact ⟨s, rfl, hphase.trans (if_pos hkj)⟩
  | succ j ih =>
    obtain ⟨t, ht, hr', hphase', hresp⟩ := execStep_of_holds_runRegs hvalid hW (by omega) hphase hr
    obtain ⟨t', ht', hdone⟩ := ih (by omega) hphase' hr'
    have hissue := issue_of_next (i := .step) ht hresp
    exact ⟨t', by simp [issueSteps, hissue, ht', List.range'_succ], hdone⟩

/-- A whole run, issued by the host: the LOAD's response with its three records, then the responses of the STEPs (R73, R89). -/
theorem issueRun_of_validOperands (hs : s.phase ≠ .fatal) :
    ∃ t first, issueRun m n mval rval s = some (t, first :: (List.range (m + n)).map (stepResponse c m n mval rval)) ∧
      first.recs.length = 3 ∧ t.phase = .done := by
  have hload := execLoad_of_totalBits_le hs hvalid hW
  have hphase : (s.startRun (geometryOf m n) mval m rval).phase = if 0 = m + n then .done else .run :=
    (if_neg (by obtain ⟨hm, -⟩ := hvalid; omega)).symm
  obtain ⟨t, ht, hdone⟩ := issueSteps_of_holds_runRegs hvalid hW (Nat.zero_add _) hphase
    (startRun_holds_loadedRegs s m n mval rval)
  have hissue := issue_of_next (i := .load m n mval rval) hload
    (s.startRun_resp (geometryOf m n) mval m rval)
  rw [← List.range_eq_range'] at ht
  exact ⟨t, _, issueRun_of_ok hissue rfl ht, rfl, hdone⟩

/-- Iteration `k` emits one record, and one more where the multiplier bit changes (R130). -/
theorem recordsOf_runRegs_length (hk : k < m + n) :
    (recordsOf (runRegs c m n mval rval k)).length = 1 + if bitAt rval k = prevBit rval k then 0 else 1 := by
  have hpair := runRegs_P_mod_four hvalid hW hk
  have hbit := bitAt_lt_two rval k
  have hprev : prevBit rval k < 2 := bitAt_lt_two _ _
  rw [← List.length_map (fun r : TraceRecord c => r.label), recordsOf_labels, hpair]
  by_cases heq : bitAt rval k = prevBit rval k
  · rw [if_pos heq, if_neg (by omega), if_neg (by omega)]
    rfl
  · rcases (by omega : 2 * bitAt rval k + prevBit rval k = 1 ∨ 2 * bitAt rval k + prevBit rval k = 2) with h | h <;>
      simp [h, heq]

/-- The records of the first `k` STEPs (R130). -/
theorem stepResponses_records_length (hk : k ≤ m + n) :
    (((List.range k).map (stepResponse c m n mval rval)).flatMap (·.recs)).length = k + changes rval k := by
  induction k with
  | zero => rfl
  | succ k ih =>
    rw [List.range_succ, List.map_append, List.flatMap_append, List.length_append, ih (Nat.le_of_succ_le hk), changes_succ]
    simp [recordsOf_runRegs_length hvalid hW hk]
    omega

end Run

end Sys2Proof.Machine
end

section
/-! The end of a run under WINDOW (43_sequencer.md R131): no block of ones is pending, and P holds twice the product. -/

namespace Sys2Proof.Machine
open Sys2Proof

variable {c : Params} {m n mval rval : Nat}

/-- A pattern whose two's-complement value is a natural number is that number. -/
theorem eq_of_signedOf_eq_natCast {v w x : Nat} (hw : 1 ≤ w) (hv : v < 2 ^ w) (h : signedOf v w = x) : v = x := by
  rw [signedOf_of_lt hw hv] at h
  zify at hv
  split at h <;> omega

/-- The multiplier takes less than half of the window, as the multiplicand does (R82). -/
theorem two_mul_multiplier_lt (hm : 1 ≤ m) (hr : rval < 2 ^ n) : 2 * rval < 2 ^ (m + n) := by
  rw [Nat.add_comm]
  exact two_mul_lt_two_pow_add hr hm

/-- The multiplier's top bit `r_{pb-1}` is 0 (R130). -/
theorem prevBit_last (hm : 1 ≤ m) (hr : rval < 2 ^ n) : prevBit rval (m + n) = 0 := by
  rw [prevBit, bitAt, Nat.div_eq_of_lt (two_mul_multiplier_lt hm hr), Nat.zero_mod]

/-- After the last iteration the Booth partial product is twice the product (R131). -/
theorem boothPartial_last (hm : 1 ≤ m) (hr : rval < 2 ^ n) :
    boothPartial (m + n) mval rval (m + n) (prevBit rval (m + n)) = (2 * (mval * rval) : Nat) := by
  have hlt := two_mul_multiplier_lt hm hr
  rw [boothPartial, plainPartial, prevBit_last hm hr, Nat.div_eq_of_lt hlt, Nat.mod_eq_of_lt (by omega : rval < 2 ^ (m + n)),
    Nat.add_sub_cancel_left]
  push_cast
  ring

/-- The product of the operands fits the product port (R82, R131). -/
theorem product_lt (hm : mval < 2 ^ m) (hr : rval < 2 ^ n) : mval * rval < 2 ^ (m + n) := by
  rw [pow_add]
  exact Nat.mul_lt_mul'' hm hr

/-- Under WINDOW the run ends with `P = (m_val · r_val) << 1` (R131). -/
theorem runRegs_P_last_of_window (hvalid : ValidOperands m n mval rval) (hW : 2 * (m + n) + 1 ≤ c.wmax)
    (hmode : c.negMode = .window) : (runRegs c m n mval rval (m + n)).P.toNat = 2 * (mval * rval) := by
  obtain ⟨hl, -⟩ := runRegs_legal hvalid hW le_rfl
  have hpos := (RunRegs.width_of_legal hl).1
  have hP := signedOf_runRegs_P hvalid hW hmode le_rfl
  obtain ⟨-, -, -, -, -, -, hlt, -⟩ := hl
  obtain ⟨hm, -, -, hrv⟩ := hvalid
  exact eq_of_signedOf_eq_natCast hpos hlt (hP.trans (boothPartial_last hm hrv))

end Sys2Proof.Machine
end

section
/-! The value of P in a run under OPERAND (43_sequencer.md R132). S exceeds the negated multiplicand by `2^m` at offset `hb`, so P
holds the Booth partial product and, above it, `2^m` for each block of ones that has begun. -/

namespace Sys2Proof.Machine
open Sys2Proof

variable {c : Params} {m n mval rval k : Nat}

/-! ### The iterations that add S -/

/-- 1 where the pair of iteration `k` selects S, else 0 (R69, R132). -/
def startBit (r k : Nat) : Nat := if bitAt r k = 1 ∧ prevBit r k = 0 then 1 else 0

theorem startBit_le_bitAt (r k : Nat) : startBit r k ≤ bitAt r k := by
  rw [startBit]
  split <;> omega

theorem startsSum_succ (r k : Nat) : startsSum r (k + 1) = startsSum r k + startBit r k * 2 ^ k := by
  rw [startsSum, startsSum, List.range_succ, List.filter_append, List.map_append, List.sum_append]
  by_cases h : bitAt r k = 1 ∧ prevBit r k = 0
  · simp [startBit, h]
  · simp [startBit, h]

theorem mod_two_pow_succ (r k : Nat) : r % 2 ^ (k + 1) = r % 2 ^ k + bitAt r k * 2 ^ k := by
  rw [Nat.mod_pow_succ, bitAt, Nat.mul_comm]

/-- The starts are bits of the multiplier. -/
theorem startsSum_le (r k : Nat) : startsSum r k ≤ r % 2 ^ k := by
  induction k with
  | zero => exact Nat.zero_le _
  | succ k ih =>
    rw [startsSum_succ, mod_two_pow_succ]
    exact Nat.add_le_add ih (Nat.mul_le_mul_right _ (startBit_le_bitAt r k))

/-- A multiplier with a bit set has a start: its lowest set bit. -/
theorem mod_two_pow_eq_zero_of_startsSum (r : Nat) (h : startsSum r k = 0) : r % 2 ^ k = 0 := by
  induction k with
  | zero => exact Nat.mod_one r
  | succ k ih =>
    rw [startsSum_succ, Nat.add_eq_zero_iff] at h
    obtain ⟨hsum, hbit⟩ := h
    have hlow := ih hsum
    have hprev : prevBit r k = 0 := by
      obtain ⟨d, rfl⟩ := Nat.dvd_of_mod_eq_zero hlow
      rw [prevBit, bitAt, Nat.mul_left_comm, Nat.mul_div_cancel_left _ (by positivity), Nat.mul_mod_right]
    have hzero : bitAt r k = 0 := by
      by_contra hne
      have hone : bitAt r k = 1 := by have := bitAt_lt_two r k; omega
      simp [startBit, hone, hprev] at hbit
    rw [mod_two_pow_succ, hlow, hzero, Nat.zero_mul]

/-! ### What S exceeds the negated multiplicand by -/

/-- `A + S` at offset `hb` under OPERAND: 0 for multiplicand 0, else `2^m` (R85). -/
def excess (m mval : Nat) : Nat := if mval = 0 then 0 else 2 ^ m

theorem excess_of_zero : excess m 0 = 0 := rfl

theorem excess_of_ne_zero (h : mval ≠ 0) : excess m mval = 2 ^ m := if_neg h

theorem excess_le : excess m mval ≤ 2 ^ m := by
  rw [excess]
  split
  · exact Nat.zero_le _
  · exact le_rfl

theorem excess_lt_add (m mval : Nat) : excess m mval < 2 ^ m + mval := by
  have hpos : 0 < 2 ^ m := by positivity
  rw [excess]
  split <;> omega

theorem negated_add_eq_excess (h : mval < 2 ^ m) : (2 ^ m - mval) % 2 ^ m + mval = excess m mval := by
  rw [← twosComp_eq_mod h, twosComp_eq h, excess]
  split <;> omega

/-- The two's-complement value of a number of fewer than `pb` bits at offset `hb`. -/
theorem signedOf_shifted {v pb : Nat} (h : 2 * v < 2 ^ pb) :
    signedOf (v * 2 ^ (pb + 1)) (2 * pb + 1) = (v * 2 ^ (pb + 1) : Nat) := by
  rw [signedOf, Nat.add_sub_cancel, bitAt_shifted_top_of_lt h, if_neg (by decide)]

/-- What iteration `k` adds at offset `hb` under OPERAND: the recoded multiplicand, and the excess where it adds S (R132). -/
theorem signedOf_addendOf_of_operand {r : RunRegs c} {neg pb : Nat} (hpair : r.P.toNat % 4 = 2 * bitAt rval k + prevBit rval k)
    (hv : 2 * mval < 2 ^ pb) (hneg : 2 * neg < 2 ^ pb) (hA : r.A.toNat = mval * 2 ^ (pb + 1))
    (hS : r.S.toNat = neg * 2 ^ (pb + 1)) (hexcess : neg + mval = excess m mval) :
    signedOf (addendOf r) (2 * pb + 1) =
      ((prevBit rval k : Int) - bitAt rval k) * (mval * 2 ^ (pb + 1)) +
        startBit rval k * (excess m mval * 2 ^ (pb + 1)) := by
  have hzero : signedOf 0 (2 * pb + 1) = 0 := signedOf_of_two_mul_lt (Nat.le_add_left _ _) (by positivity)
  have hprev : prevBit rval k < 2 := bitAt_lt_two _ _
  have hbit := bitAt_lt_two rval k
  rw [addendOf, hpair, hA, hS, startBit, ← hexcess]
  generalize bitAt rval k = bit at *
  generalize prevBit rval k = prev at *
  interval_cases bit <;> interval_cases prev
  · simp [hzero]
  · simp [signedOf_shifted hv]
  · simp [signedOf_shifted hneg]
    ring
  · simp [hzero]

/-! ### The closed form -/

/-- The value of P in iteration `k` under OPERAND, with the pending bit `b` of `boothPartial` and the starts below `j`: those below
`k` before the addition, and the one of iteration `k` after it. -/
def operandPartial (m n mval rval k j b : Nat) : Int :=
  boothPartial (m + n) mval rval k b + (excess m mval * startsSum rval j * 2 ^ (m + n + 1 - k) : Nat)

theorem operandPartial_zero : operandPartial m n mval rval 0 0 (prevBit rval 0) = 2 * rval := by
  have hstarts : startsSum rval 0 = 0 := rfl
  rw [operandPartial, boothPartial_zero, hstarts]
  simp

theorem operandPartial_add (hk : k ≤ m + n) :
    operandPartial m n mval rval k k (prevBit rval k) +
        (((prevBit rval k : Int) - bitAt rval k) * (mval * 2 ^ (m + n + 1)) +
          startBit rval k * (excess m mval * 2 ^ (m + n + 1))) =
      operandPartial m n mval rval k (k + 1) (bitAt rval k) := by
  have hplace : (2 : Int) ^ (m + n + 1) = 2 ^ k * 2 ^ (m + n + 1 - k) := by
    rw [← pow_add]
    congr 1
    omega
  rw [operandPartial, operandPartial, startsSum_succ, ← boothPartial_add (m + n) mval rval k (prevBit rval k) (bitAt rval k)]
  push_cast
  rw [hplace]
  ring

theorem operandPartial_div_two (hk : k < m + n) :
    operandPartial m n mval rval k (k + 1) (bitAt rval k) / 2 =
      operandPartial m n mval rval (k + 1) (k + 1) (bitAt rval k) := by
  have hpow : 2 ^ (m + n + 1 - k) = 2 ^ (m + n + 1 - (k + 1)) * 2 := by
    rw [← pow_succ]
    congr 1
    omega
  rw [operandPartial, operandPartial, ← boothPartial_div_two hk, hpow, ← Nat.mul_assoc, Nat.cast_mul _ 2]
  exact Int.add_mul_ediv_right _ _ (by decide)

theorem operandPartial_last (hm : 1 ≤ m) (hr : rval < 2 ^ n) :
    operandPartial m n mval rval (m + n) (m + n) (prevBit rval (m + n)) =
      (2 * (mval * rval + excess m mval * startsSum rval (m + n)) : Nat) := by
  rw [operandPartial, boothPartial_last hm hr, Nat.add_sub_cancel_left]
  push_cast
  ring

/-! ### Its bounds: the sign bit is never reached -/

/-- The upper window after the addition of iteration `k`, times `2^k`, with the multiplicand of a pending block on the other side:
it stays below `2 * 2^m`, which is within the window's lower half where the multiplier has more than one bit. -/
theorem operand_window_lt_two_mul (hmv : mval < 2 ^ m) (k : Nat) :
    mval * (rval % 2 ^ k) + excess m mval * startsSum rval (k + 1) < 2 * 2 ^ m * 2 ^ k + mval * bitAt rval k * 2 ^ k := by
  have hmod : rval % 2 ^ k < 2 ^ k := Nat.mod_lt _ (by positivity)
  have hbit : bitAt rval k ≤ 1 := Nat.le_of_lt_succ (bitAt_lt_two _ _)
  have hstarts := startsSum_le rval (k + 1)
  rw [mod_two_pow_succ] at hstarts
  have hexcess := Nat.mul_le_mul (excess_le (m := m) (mval := mval)) hstarts
  generalize rval % 2 ^ k = u, bitAt rval k = b, excess m mval * startsSum rval (k + 1) = x at *
  have hpos : 0 < 2 ^ m := by positivity
  generalize 2 ^ k = K, 2 ^ m = M at *
  have hlow : mval * u ≤ M * u := Nat.mul_le_mul_right u hmv.le
  have hlow' : mval * u ≤ mval * K := Nat.mul_le_mul_left mval hmod.le
  have hhigh : M * u < M * K := Nat.mul_lt_mul_of_pos_left hmod hpos
  interval_cases b <;> linarith

/-- A multiplier of one bit leaves room for `2^m` only: its one start is in iteration 0, which finds the window empty. -/
theorem operand_window_lt_of_one_bit (hmv : mval < 2 ^ m) (hr : rval < 2) (k : Nat) :
    mval * (rval % 2 ^ k) + excess m mval * startsSum rval (k + 1) < 2 ^ m * 2 ^ k + mval * bitAt rval k * 2 ^ k := by
  have hstarts : startsSum rval (k + 1) ≤ rval := (startsSum_le rval (k + 1)).trans (Nat.mod_le _ _)
  have hexcess := Nat.mul_le_mul_left (excess m mval) hstarts
  interval_cases rval
  · have hpos : 0 < 2 ^ m * 2 ^ k := by positivity
    rw [Nat.zero_mod, Nat.mul_zero]
    omega
  · cases k with
    | zero =>
      have hlt := excess_lt_add m mval
      have hbit : bitAt 1 0 = 1 := rfl
      rw [hbit, pow_zero, Nat.mod_one]
      omega
    | succ k =>
      have hone : 1 < 2 ^ (k + 1) := Nat.one_lt_two_pow (Nat.succ_ne_zero k)
      have hroom : 2 ^ m * 2 ≤ 2 ^ m * 2 ^ (k + 1) := Nat.mul_le_mul_left _ hone
      have hle := excess_le (m := m) (mval := mval)
      rw [Nat.mod_eq_of_lt hone]
      omega

/-- The two together: the upper window's sign bit stays clear. -/
theorem operand_window_lt {j : Nat} (hmv : mval < 2 ^ m) (hr : rval < 2 ^ (j + 1)) (k : Nat) :
    mval * (rval % 2 ^ k) + excess m mval * startsSum rval (k + 1) <
      2 ^ (m + j) * 2 ^ k + mval * bitAt rval k * 2 ^ k := by
  cases j with
  | zero => exact operand_window_lt_of_one_bit hmv hr k
  | succ j =>
    have hroom : 2 * 2 ^ m * 2 ^ k ≤ 2 ^ (m + (j + 1)) * 2 ^ k := by
      rw [← pow_succ']
      exact Nat.mul_le_mul_right _ (Nat.pow_le_pow_right (by decide) (by omega))
    exact (operand_window_lt_two_mul hmv k).trans_le (Nat.add_le_add_right hroom _)

/-- The value after an addition, with the multiplicand of a pending block on the other side. -/
theorem plainPartial_add_excess_lt {j : Nat} (hmv : mval < 2 ^ m) (hr : rval < 2 ^ (j + 1)) (hk : k < m + (j + 1)) :
    plainPartial (m + (j + 1)) mval rval k + excess m mval * startsSum rval (k + 1) * 2 ^ (m + (j + 1) + 1 - k) <
      2 ^ (2 * (m + (j + 1))) + mval * bitAt rval k * 2 ^ (m + (j + 1) + 1) := by
  have hwindow := operand_window_lt hmv hr k
  have hr' : rval < 2 ^ (m + (j + 1)) := lt_two_pow_of_le hr (Nat.le_add_left _ m)
  have hplace : 2 ^ (m + (j + 1) + 1) = 2 ^ k * 2 ^ (m + (j + 1) + 1 - k) := by
    rw [← pow_add]
    congr 1
    omega
  have hhalf : 2 ^ (2 * (m + (j + 1))) = 2 ^ (m + j) * 2 ^ (m + (j + 1) + 1) := by
    rw [← pow_add]
    congr 1
    omega
  have hunused : 2 * rval / 2 ^ k < 2 ^ (m + (j + 1) + 1 - k) :=
    Nat.div_lt_of_lt_mul (by rw [← hplace, pow_succ]; omega)
  rw [hhalf, hplace, plainPartial]
  generalize 2 ^ (m + (j + 1) + 1 - k) = L, 2 ^ k = K, excess m mval * startsSum rval (k + 1) = x at *
  calc 2 * rval / K + mval * (rval % K) * L + x * L
      < L + mval * (rval % K) * L + x * L := Nat.add_lt_add_right (Nat.add_lt_add_right hunused _) _
    _ = (mval * (rval % K) + x + 1) * L := by ring
    _ ≤ (2 ^ (m + j) * K + mval * bitAt rval k * K) * L := Nat.mul_le_mul_right L hwindow
    _ = 2 ^ (m + j) * (K * L) + mval * bitAt rval k * (K * L) := by ring

/-- Under OPERAND the value after an addition stays within the signed range of W bits. -/
theorem operandPartial_bounds (hvalid : ValidOperands m n mval rval) (hk : k < m + n) :
    -(2 ^ (2 * (m + n) + 1) : Int) ≤ operandPartial m n mval rval k (k + 1) (bitAt rval k) * 2 ∧
      operandPartial m n mval rval k (k + 1) (bitAt rval k) * 2 < 2 ^ (2 * (m + n) + 1) := by
  obtain ⟨-, hmv, hn, hrv⟩ := hvalid
  constructor
  · have hrange := two_mul_window_le hmv hn
    have hlo := (boothPartial_bounds (mval := mval) (lt_two_pow_of_le hrv (Nat.le_add_left n m)) hk.le
      (bitAt_lt_two rval k)).1
    have hpos : (0 : Int) < 2 ^ (m + n + 1) := by positivity
    rw [operandPartial]
    linarith [Int.natCast_nonneg (excess m mval * startsSum rval (k + 1) * 2 ^ (m + n + 1 - k))]
  · obtain ⟨j, rfl⟩ : ∃ j, n = j + 1 := ⟨n - 1, by omega⟩
    have hlt := plainPartial_add_excess_lt hmv hrv hk
    rw [operandPartial, boothPartial, pow_succ _ (2 * _)]
    zify at hlt ⊢
    linarith

/-- Where the sum stays within the signed range, a STEP halves it and floors it (R107, R110). -/
theorem signedOf_next_P {r : RunRegs c} {x y : Int} (hl : r.legal) (hP : signedOf r.P.toNat r.W.toNat = x)
    (hadd : signedOf (addendOf r) r.W.toNat = y) (hlo : -(2 ^ r.W.toNat : Int) ≤ (x + y) * 2)
    (hhi : (x + y) * 2 < 2 ^ r.W.toNat) : signedOf r.next.P.toNat r.next.W.toNat = (x + y) / 2 := by
  subst hP hadd
  rw [RunRegs.next_P_toNat hl, RunRegs.next_W, signedOf_shiftOf (RunRegs.width_of_legal hl).1 (sumOf_lt r),
    signedOf_sumOf hl hlo hhi]

section Operand

variable (hvalid : ValidOperands m n mval rval) (hW : 2 * (m + n) + 1 ≤ c.wmax) (hmode : c.negMode = .operand)
include hvalid hW hmode

/-- Under OPERAND P holds `operandPartial` before every iteration and after the last (R132). -/
theorem signedOf_runRegs_P_of_operand (hk : k ≤ m + n) :
    signedOf (runRegs c m n mval rval k).P.toNat (runRegs c m n mval rval k).W.toNat =
      operandPartial m n mval rval k k (prevBit rval k) := by
  induction k with
  | zero =>
    obtain ⟨hm, -, hn, hrv⟩ := hvalid
    obtain ⟨-, hWk, -⟩ := runRegs_geometry_toNat (mval := mval) (rval := rval) hW 0
    have hlt : 2 * (2 * rval) < 2 ^ (2 * (m + n) + 1) :=
      lt_two_pow_of_le (by rw [pow_add]; omega : 2 * (2 * rval) < 2 ^ (n + 2)) (by omega)
    rw [operandPartial_zero, hWk, runRegs, loadedRegs_P_toNat hW mval hrv,
      signedOf_of_two_mul_lt (Nat.le_add_left _ _) hlt]
    push_cast
    rfl
  | succ k ih =>
    have hle : k ≤ m + n := Nat.le_of_succ_le hk
    obtain ⟨hl, -⟩ := runRegs_legal hvalid hW hle
    have hpair := runRegs_P_mod_four hvalid hW hk
    have hbounds := operandPartial_bounds hvalid hk
    have hP := ih hle
    obtain ⟨-, hmv, hn, -⟩ := hvalid
    obtain ⟨-, hWk, -⟩ := runRegs_geometry_toNat (mval := mval) (rval := rval) hW k
    obtain ⟨-, -, -, hA, hS⟩ := runRegs_frame c m n mval rval k
    have hadd := signedOf_addendOf_of_operand hpair (two_mul_lt_two_pow_add hmv hn)
      (two_mul_lt_two_pow_add (Nat.mod_lt _ (by positivity)) hn) (hA ▸ loadedRegs_A_toNat hW rval hmv)
      (hS ▸ loadedRegs_S_toNat_of_operand hW rval hmv hmode) (negated_add_eq_excess hmv)
    rw [← hWk] at hadd hbounds
    rw [← operandPartial_add hle] at hbounds
    rw [runRegs, signedOf_next_P hl hP hadd hbounds.1 hbounds.2, operandPartial_add hle, operandPartial_div_two hk,
      prevBit_succ]

/-- The end of a run under OPERAND (R132). -/
theorem runRegs_P_last_of_operand :
    (runRegs c m n mval rval (m + n)).P.toNat = 2 * (mval * rval + excess m mval * startsSum rval (m + n)) := by
  obtain ⟨hl, -⟩ := runRegs_legal hvalid hW le_rfl
  have hpos := (RunRegs.width_of_legal hl).1
  have hP := signedOf_runRegs_P_of_operand hvalid hW hmode le_rfl
  obtain ⟨-, -, -, -, -, -, hlt, -⟩ := hl
  obtain ⟨hm, -, -, hrv⟩ := hvalid
  exact eq_of_signedOf_eq_natCast hpos hlt (hP.trans (operandPartial_last hm hrv))

end Operand

/-- `2^m` for each start is no multiple of `2^pb`, so the low bits of the sum are not the product (R132). -/
theorem product_add_starts_ne (hrv : rval < 2 ^ n) (hr : rval ≠ 0) :
    (mval * rval + 2 ^ m * startsSum rval (m + n)) % 2 ^ (m + n) ≠ mval * rval := by
  intro h
  have hmod : rval % 2 ^ (m + n) = rval := Nat.mod_eq_of_lt (lt_two_pow_of_le hrv (Nat.le_add_left n m))
  have hpos : startsSum rval (m + n) ≠ 0 := fun h0 => hr (hmod ▸ mod_two_pow_eq_zero_of_startsSum rval h0)
  have hle : startsSum rval (m + n) ≤ rval := (startsSum_le rval (m + n)).trans_eq hmod
  have hcancel : mval * rval + 2 ^ m * startsSum rval (m + n) ≡ mval * rval + 0 [MOD 2 ^ m * 2 ^ n] := by
    rw [← pow_add, Nat.ModEq, h, Nat.add_zero, ← h, Nat.mod_mod]
  have hdvd := Nat.dvd_of_mod_eq_zero (Nat.ModEq.add_left_cancel' _ hcancel)
  exact absurd (Nat.le_of_dvd (Nat.pos_of_ne_zero hpos) (Nat.dvd_of_mul_dvd_mul_left (by positivity) hdvd)) (by omega)

end Sys2Proof.Machine
end

section
/-! What each outcome of a command leaves on the response port (43_sequencer.md R126 to R128), and the STATUS word as a number
(10_state.md R30). -/

namespace Sys2Proof.Machine
open Sys2Proof

variable {c : Params} {s t : State.At c}

/-- The fields of STATUS stand side by side and fill it (R30). -/
theorem statusWord_toNat (p : Phase) (e : Status) (rem pb : Count c) :
    (statusWord p e rem pb).toNat =
      p.code.toNat + e.code.toNat * 2 ^ 2 + rem.toNat * 2 ^ 5 + pb.toNat * 2 ^ (5 + c.wf) := by
  have hlt := add_mul_lt_mul p.code.isLt (add_mul_lt_mul e.code.isLt (add_mul_lt_mul rem.isLt pb.isLt))
  have hpow : 2 ^ 2 * (2 ^ 3 * (2 ^ c.wf * 2 ^ c.wf)) = 2 ^ c.statW := by
    rw [← pow_add, ← pow_add, ← pow_add]
    congr 1
    simp only [Params.statW]
    omega
  have hnest : p.code.toNat + e.code.toNat * 2 ^ 2 + rem.toNat * 2 ^ 5 + pb.toNat * 2 ^ (5 + c.wf) =
      p.code.toNat + 2 ^ 2 * (e.code.toNat + 2 ^ 3 * (rem.toNat + 2 ^ c.wf * pb.toNat)) := by
    rw [pow_add]
    ring
  rw [hpow] at hlt
  rw [statusWord, hnest, BitVec.toNat_ofNat, Nat.mod_eq_of_lt hlt]

/-- Outside RUN a command other than LOAD writes the response port only (R121, R123, R128). -/
theorem sameBlock_of_command {w : CommandWord c} (hload : w.toNat % 4 ≠ 1) (hrun : s.phase ≠ .run)
    (h : execAt (decodeCmd c w) s = .next t) : SameBlock s t := by
  rw [← opOf_toNat] at hload
  rcases decodeCmd_cases w with ⟨-, hd⟩ | ⟨ho, -⟩ | ⟨-, hd⟩ | ⟨-, hd⟩
  · rw [hd] at h
    obtain ⟨r, -, -, -, rfl⟩ := execQuery_eq_next h
    rfl
  · exact absurd (congrArg BitVec.toNat ho) hload
  · rw [hd] at h
    cases (if_neg hrun : execStep s = _).symm.trans h
    rfl
  · rw [hd] at h
    cases h
    rfl

/-- What a LOAD answers: the three records where it is accepted, and never a product (R89, R92, R126, R127). -/
theorem execLoad_answer {m n mval rval : Nat} {r : Response c} (h : execLoad m n mval rval s = .next t)
    (hr : t.resp = some r) :
    r.product = none ∧ r.recs.map (·.label) = if r.status = .ok then [Label.a, .s, .p] else [] := by
  rcases execLoad_cases m n mval rval s with ⟨-, hx⟩ | ⟨-, e, hc, hx⟩ | ⟨-, g, -, hx⟩ <;> cases hx.symm.trans h
  · cases hr
    exact ⟨rfl, rfl⟩
  · cases hr
    rcases checkOperands_error hc with rfl | rfl <;> exact ⟨rfl, rfl⟩
  · cases (s.startRun_resp g mval m rval).symm.trans hr
    exact ⟨rfl, rfl⟩

/-- The pair is one of four bit patterns (R69). -/
theorem pairOf_cases (p : Reg c) : pairOf p = 0#2 ∨ pairOf p = 1#2 ∨ pairOf p = 2#2 ∨ pairOf p = 3#2 := by
  generalize pairOf p = b
  revert b
  decide

/-- What an accepted STEP answers: the addition's record, by the pair that it found, before the shift's (R126). -/
theorem stepRun_answer {r : Response c} (h : stepRun s = .next t) (hr : t.resp = some r) :
    ∃ p, s.P = some p ∧ r.status = .ok ∧
      r.recs.map (·.label) =
        if pairOf p = 1#2 then [Label.pPlusA, .shiftP] else if pairOf p = 2#2 then [.pPlusS, .shiftP] else [.shiftP] := by
  obtain ⟨p, _, _, _, q', recs, hp, -, -, -, hadd, hend⟩ := stepRun_eq_next h
  have hresp : ∃ prod, t.resp = some ⟨.ok, recs ++ [⟨.shiftP, q'⟩], prod, none, none⟩ := by
    rcases hend with ⟨-, pb, -, rfl⟩ | ⟨-, rfl⟩ <;> exact ⟨_, rfl⟩
  obtain ⟨prod, hresp⟩ := hresp
  cases hresp.symm.trans hr
  refine ⟨p, hp, rfl, ?_⟩
  rcases hadd with ⟨hc | hc, -, rfl⟩ | ⟨a, hc, -, -, rfl⟩ | ⟨a, hc, -, -, rfl⟩ <;> simp [hc]

/-- What a completed read of the product gives: `P[pb:1]` in DONE, else nothing (R127). -/
theorem readProduct_eq_next {k : Option (Value c) → Out c} (h : readProduct s k = .next t) :
    ∃ v, k v = .next t ∧
      ((s.phase = .done ∧ ∃ p pb, s.P = some p ∧ s.pb = some pb ∧ v = some (productOf p pb)) ∨
        (s.phase ≠ .done ∧ v = none)) := by
  by_cases hdone : s.phase = .done
  · rw [readProduct, if_pos hdone] at h
    obtain ⟨p, hp, h⟩ := readReg_eq_next h
    obtain ⟨pb, hpb, h⟩ := readReg_eq_next h
    exact ⟨_, h, .inl ⟨hdone, p, pb, hp, hpb, rfl⟩⟩
  · rw [readProduct, if_neg hdone] at h
    exact ⟨_, h, .inr ⟨hdone, rfl⟩⟩

theorem readStatus_eq_next {k : StatusWord c → Out c} (h : readStatus s k = .next t) : ∃ st, k st = .next t := by
  rw [readStatus] at h
  split at h
  · obtain ⟨_, -, h⟩ := readReg_eq_next h
    obtain ⟨_, -, h⟩ := readReg_eq_next h
    exact ⟨_, h⟩
  · exact ⟨_, h⟩

theorem readQueryRegs_eq_next {k : Option (QueryRegs c) → Out c} (h : readQueryRegs s k = .next t) :
    ∃ q, k q = .next t := by
  rw [readQueryRegs] at h
  split at h
  · obtain ⟨_, -, h⟩ := readReg_eq_next h
    obtain ⟨_, -, h⟩ := readReg_eq_next h
    obtain ⟨_, -, h⟩ := readReg_eq_next h
    exact ⟨_, h⟩
  · exact ⟨_, h⟩

/-- A completed QUERY carries the product in DONE and only there (R127, R128). -/
theorem execQuery_product (h : execQuery s = .next t) :
    ∃ r, t = s.setResp r ∧
      ((s.phase = .done ∧ ∃ p pb, s.P = some p ∧ s.pb = some pb ∧ r.product = some (productOf p pb)) ∨
        (s.phase ≠ .done ∧ r.product = none)) := by
  obtain ⟨st, h⟩ := readStatus_eq_next h
  obtain ⟨regs, h⟩ := readQueryRegs_eq_next h
  obtain ⟨v, h, hv⟩ := readProduct_eq_next h
  cases h
  exact ⟨_, rfl, hv⟩

/-- QUERY with a run loaded (R128). -/
theorem execQuery_of_holds {r : RunRegs c} (hrun : s.phase = .run ∨ s.phase = .done) (hr : s.holds r) :
    execQuery s = .next (s.setResp
      { status := .ok, recs := [], stat := some (statusWord s.phase s.err r.rem r.pb),
        regs := some { qa := r.A, qs := r.S, qp := r.P },
        product := if s.phase = .done then some (productOf r.P r.pb) else none }) := by
  obtain ⟨hpb, -, -, hA, hS, hP, hrem⟩ := hr
  have hloaded : s.phase.hasRun = true := by rcases hrun with hp | hp <;> rw [hp] <;> rfl
  simp only [execQuery, readStatus, readQueryRegs, readProduct, hloaded, if_true, hpb, hA, hS, hP, hrem, readReg_some]
  split <;> rfl

/-- QUERY without a run (R30, R128). -/
theorem execQuery_of_no_run (hrun : s.phase = .idle ∨ s.phase = .fatal) :
    execQuery s = .next (s.setResp
      { status := .ok, recs := [], stat := some (statusWord s.phase s.err 0 0), regs := none, product := none }) := by
  rcases hrun with hp | hp <;> simp [execQuery, readStatus, readQueryRegs, readProduct, hp, Phase.hasRun]

end Sys2Proof.Machine
end

section
/-! The statements of 43_sequencer.md. -/

namespace Sys2Proof
open Sys2Proof.Machine

/-- Settles O48: `runFor_holds`, with rem counting the STEPs left. -/
theorem runTakesExactlyPbSteps : Obligations.RunTakesExactlyPbSteps := by
  intro c s m n mv rv hc hs hvalid hpb k hk
  have hW := (Params.totalBits_le_wmax_iff hc _).mpr hpb
  obtain ⟨t, ht, ⟨-, -, -, -, -, -, hrem⟩, hphase⟩ := runFor_holds hvalid hW hs hk
  exact ⟨t, _, ht, hrem, (runRegs_legal hvalid hW hk).2, hphase⟩

/-- Settles O49: the low bits of P are those of twice the multiplier, shifted by `k`. -/
theorem stepSeesMultiplierBits : Obligations.StepSeesMultiplierBits := by
  intro c s m n mv rv hc hs hvalid hpb k hk
  have hW := (Params.totalBits_le_wmax_iff hc _).mpr hpb
  obtain ⟨t, ht, ⟨-, -, -, -, -, hP, -⟩, -⟩ := runFor_holds hvalid hW hs hk.le
  exact ⟨t, _, ht, hP, runRegs_P_mod_four hvalid hW hk⟩

/-- Settles O50: the responses of a run are the LOAD's and `stepResponse` of each iteration, whose records follow the pair of
multiplier bits. -/
theorem runRecordCount : Obligations.RunRecordCount := by
  intro c s m n mv rv hc hs hvalid hpb
  have hW := (Params.totalBits_le_wmax_iff hc _).mpr hpb
  obtain ⟨t, first, hrun, hfirst, -⟩ := issueRun_of_validOperands hvalid hW hs
  refine ⟨t, first, _, hrun, by simp, ?_, fun k hk => ?_⟩
  · rw [List.flatMap_cons, List.length_append, hfirst, stepResponses_records_length hvalid hW le_rfl, ← Nat.add_assoc]
  · rw [List.length_map, List.length_range] at hk
    have hpair := runRegs_P_mod_four hvalid hW hk
    have hbit := bitAt_lt_two rv k
    have hprev : prevBit rv k < 2 := bitAt_lt_two _ _
    rw [List.getElem_map, List.getElem_range, stepResponse_recs, recordsOf_labels, hpair]
    exact if_congr (by omega) rfl (if_congr (by omega) rfl rfl)

/-- Settles O52: P encodes `boothPartial` after every STEP, which at the end is twice the product. -/
theorem windowRunMultiplies : Obligations.WindowRunMultiplies := by
  refine ⟨Config.hw_legal, rfl, fun c s m n mv rv hc hmode hs hvalid hpb => ?_⟩
  have hW := (Params.totalBits_le_wmax_iff hc _).mpr hpb
  have hP := runRegs_P_last_of_window hvalid hW hmode
  obtain ⟨hpbk, -, -⟩ := runRegs_geometry_toNat (mval := mv) (rval := rv) hW (m + n)
  obtain ⟨t, r, ht, hphase, ⟨-, -, -, -, -, htP, -⟩, hresp, hprod⟩ := runFor_done hvalid hW hs
  obtain ⟨-, hmv, -, hrv⟩ := hvalid
  have hlt := product_lt hmv hrv
  refine ⟨t, _, r, _, ht, hphase, htP, hP, hresp, hprod, ?_, hlt⟩
  rw [productOf_toNat _ (hpbk.trans_le hpb), hP, hpbk, Nat.mul_div_cancel_left _ (by decide), Nat.mod_eq_of_lt hlt]

/-- Settles O53: P encodes `operandPartial` after every STEP, which at the end is twice the product and, above it, `2^m` for each
start; a multiplier other than 0 has a start, and its starts are no multiple of `2^n`. -/
theorem operandRunClosedForm : Obligations.OperandRunClosedForm := by
  intro c s m n mv rv hc hmode hs hvalid hpb
  have hW := (Params.totalBits_le_wmax_iff hc _).mpr hpb
  have hP := runRegs_P_last_of_operand hvalid hW hmode
  obtain ⟨hpbk, -, -⟩ := runRegs_geometry_toNat (mval := mv) (rval := rv) hW (m + n)
  obtain ⟨t, r, ht, hphase, ⟨-, -, -, -, -, htP, -⟩, hresp, hprod⟩ := runFor_done hvalid hW hs
  obtain ⟨-, -, -, hrv⟩ := hvalid
  refine ⟨t, _, r, _, ht, hphase, htP, hresp, hprod, ?_, fun h0 => ?_, fun hne => ?_, fun hne hr => ?_⟩
  · rw [hP, Nat.mul_mod_right]
  · apply BitVec.eq_of_toNat_eq
    rw [hP, h0, excess_of_zero]
    simp
  · rw [slice, hP, excess_of_ne_zero hne, pow_one, Nat.mul_div_cancel_left _ (by decide), Nat.add_sub_cancel]
  · rw [productOf_toNat _ (hpbk.trans_le hpb), hP, hpbk, excess_of_ne_zero hne, Nat.mul_div_cancel_left _ (by decide)]
    exact product_add_starts_ne hrv hr

/-- Settles O29: `execStep_of_holds`, whose registers are `RunRegs.next`; outside RUN a STEP is rejected. -/
theorem stepResult : Obligations.StepResult := by
  refine ⟨fun s r hrun hr hl hrem => ?_, fun s hrun => if_neg hrun⟩
  refine ⟨r.next.P, r.next.rem, RunRegs.next_P_toNat hl, ?_, execStep_of_holds hrun hr hl⟩
  rw [RunRegs.next_rem, sub_one_toNat hrem, Nat.sub_add_cancel hrem]

/-- Settles O31: with rem = 1 the count becomes 0; and of the commands other than LOAD only STEP in RUN writes more than the
response. -/
theorem doneHoldsUntilLoadOrReset : Obligations.DoneHoldsUntilLoadOrReset := by
  constructor
  · intro s r hrun hr hl hrem
    have hzero : r.next.rem = 0 := by rw [RunRegs.next_rem, hrem]; rfl
    exact ⟨_, execStep_of_holds hrun hr hl, if_pos hzero, congrArg some hzero⟩
  · intro s t w hdone hload h
    rw [exec_eq_execAt] at h
    exact sameBlock_of_command hload (by simp [hdone]) h

/-- Settles O36: with a run loaded QUERY reads defined registers only, without one it reads none; the fields of STATUS do not
overlap. -/
theorem queryResult : Obligations.QueryResult := by
  refine ⟨by decide, by decide, fun s r hrun hr _ => ?_, fun s hrun => ?_⟩
  · refine ⟨_, ?_, execQuery_of_holds hrun hr⟩
    rw [statusWord_toNat, show 5 + Config.hw.wf = 11 by simp]
    omega
  · refine ⟨_, ?_, execQuery_of_no_run hrun⟩
    rw [statusWord_toNat]
    simp [Nat.mul_comm]

/-- Settles O41: LOAD and STEP by their answers; QUERY and a rejection have no record. -/
theorem recordsPerCommand : Obligations.RecordsPerCommand := by
  intro i s t r hi h hr
  rw [exec_eq_execAt] at h
  cases i with
  | query =>
    obtain ⟨r, -, hrecs, -, rfl⟩ := execQuery_eq_next h
    cases hr
    simp [hrecs]
  | load m n mv rv =>
    exact (execLoad_answer h hr).2
  | step =>
    rcases execStep_cases s with ⟨-, hx⟩ | ⟨-, hx⟩
    · obtain ⟨p, hp, hok, hlabels⟩ := stepRun_answer (hx.symm.trans h) hr
      rw [hlabels, hp]
      rcases pairOf_cases p with hc | hc | hc | hc <;> simp [hok, hc]
    · cases hx.symm.trans h
      cases hr
      rfl
  | reserved =>
    cases h
    cases hr
    rfl
  | boothNop00 | boothAddA | boothAddS | boothNop11 | asr => exact absurd hi Bool.false_ne_true

/-- Settles O42: of the outcomes of a command only the last STEP and QUERY in DONE carry a product, `P[pb:1]` of the P left. -/
theorem productOnlyInDone : Obligations.ProductOnlyInDone := by
  intro i s t r hi h hr
  rw [exec_eq_execAt] at h
  cases i with
  | query =>
    obtain ⟨r, rfl, ⟨hdone, p, pb, hp, hpb, hprod⟩ | ⟨hne, hprod⟩⟩ := execQuery_product h <;> cases hr
    · simp [hdone, hp, hpb, hprod, productOf_eq]
    · simp [hne, hprod]
  | load m n mv rv =>
    simp [(execLoad_answer h hr).1]
  | step =>
    rcases execStep_cases s with ⟨hrun, hx⟩ | ⟨hrun, hx⟩
    · obtain ⟨_, _, _, _, q', _, -, -, -, -, -, hend⟩ := stepRun_eq_next (hx.symm.trans h)
      rcases hend with ⟨-, pb, hpb, rfl⟩ | ⟨-, rfl⟩ <;> cases hr
      · simp [hrun, hpb, productOf_eq]
      · simp [hrun]
    · cases hx.symm.trans h
      cases hr
      simp [hrun]
  | reserved =>
    cases h
    cases hr
    simp
  | boothNop00 | boothAddA | boothAddS | boothNop11 | asr => exact absurd hi Bool.false_ne_true

/-- Settles O30: outside RUN a STEP is `State.At.reject`. -/
theorem stepRejectedOutsideRun : Obligations.StepRejectedOutsideRun := fun _ hrun => if_neg hrun

end Sys2Proof
end

section
/-! Operand strings and register strings (44_host_interface.md R141, R145): a text of `0` and `1` as bits, what `parse` makes of it,
and the binary form of a number. -/

namespace Sys2Proof.Machine
open Sys2Proof

/-- A character outside `0` and `1` leaves no bits (R141). -/
theorem bitsOfText_of_not_binary {s : List Char} (h : ∃ ch ∈ s, ch ≠ '0' ∧ ch ≠ '1') : bitsOfText s = none := by
  induction s with
  | nil => simp at h
  | cons x xs ih =>
    by_cases hx : x ≠ '0' ∧ x ≠ '1'
    · simp [bitsOfText, bitOfChar, hx]
    · obtain ⟨ch, hmem, hch⟩ := h
      obtain rfl | hmem := List.mem_cons.mp hmem
      · exact absurd hch hx
      · have hnone := ih ⟨ch, hmem, hch⟩
        simp [bitsOfText, hnone]

/-- A text of `0` and `1` is its bits, `1` for true (R141). -/
theorem bitsOfText_of_binary {s : List Char} (h : ∀ ch ∈ s, ch = '0' ∨ ch = '1') :
    bitsOfText s = some (s.map (· == '1')) := by
  induction s with
  | nil => rfl
  | cons x xs ih =>
    have htail := ih fun ch hmem => h ch (List.mem_cons_of_mem _ hmem)
    obtain rfl | rfl := h x List.mem_cons_self <;> simp [bitsOfText, bitOfChar, htail]

/-- `parse` succeeds on the texts that are at least one bit, with their value and their length (R141, R143). -/
theorem parse_eq_ok_iff {s : List Char} {a m : Nat} :
    parse s = .ok (a, m) ↔ ∃ b, bitsOfText s = some b ∧ b ≠ [] ∧ a = bitsValue b ∧ m = b.length := by
  rw [parse]
  cases bitsOfText s with
  | none => simp
  | some b => cases b <;> simp [eq_comm]

/-- What `parse` returns are the operands of a LOAD: a width that is not 0 and a value that fits it (R81, R141). -/
theorem width_pos_and_value_lt_of_parse {s : List Char} {a m : Nat} (h : parse s = .ok (a, m)) : 1 ≤ m ∧ a < 2 ^ m := by
  obtain ⟨b, -, hb, rfl, rfl⟩ := parse_eq_ok_iff.mp h
  exact ⟨List.length_pos_iff.mpr hb, bitsValue_lt_two_pow_length b⟩

theorem parse_of_binary {s : List Char} (hne : s ≠ []) (h : ∀ ch ∈ s, ch = '0' ∨ ch = '1') :
    parse s = .ok (bitsValue (s.map (· == '1')), s.length) :=
  parse_eq_ok_iff.mpr ⟨_, bitsOfText_of_binary h, by simpa using hne, rfl, by simp⟩

/-- R141's sum: the character at place `i` counts `2^(len - 1 - i)`. -/
theorem bitsValue_eq_sum (s : List Char) :
    bitsValue (s.map (· == '1')) =
      ((List.range s.length).map fun i => (if s[i]? = some '1' then 1 else 0) * 2 ^ (s.length - 1 - i)).sum := by
  induction s with
  | nil => rfl
  | cons x xs ih =>
    have hplace (i : Nat) : xs.length - 1 - i = xs.length - (i + 1) := by omega
    have hdigit : (x == '1').toNat = if x = '1' then 1 else 0 := by by_cases hx : x = '1' <;> simp [hx]
    simp [bitsValue, ih, List.range_succ_eq_map, Function.comp_def, hplace, hdigit]

/-! ### The binary form of a number (R145) -/

@[simp] theorem binaryText_length (w v : Nat) : (binaryText w v).length = w := by
  induction w with
  | zero => rfl
  | succ w ih => simp [binaryText, ih]

theorem binaryText_binary {w v : Nat} {ch : Char} (h : ch ∈ binaryText w v) : ch = '0' ∨ ch = '1' := by
  induction w with
  | zero => simp [binaryText] at h
  | succ w ih =>
    obtain rfl | h := List.mem_cons.mp h
    · split <;> simp
    · exact ih h

/-- The binary form in `w` characters keeps the low `w` bits. -/
theorem bitsValue_binaryText (w v : Nat) : bitsValue ((binaryText w v).map (· == '1')) = v % 2 ^ w := by
  induction w with
  | zero => simp [binaryText, bitsValue, Nat.mod_one]
  | succ w ih =>
    have hdigit : ((if bitAt v w = 1 then '1' else '0') == '1').toNat = bitAt v w := by
      obtain h | h := Nat.le_one_iff_eq_zero_or_eq_one.mp (Nat.le_of_lt_succ (bitAt_lt_two v w)) <;> simp [h]
    rw [binaryText, List.map_cons, bitsValue, ih, hdigit, List.length_map, binaryText_length, mod_two_pow_succ, Nat.add_comm]

/-- The three segments of a formatted register, side by side without the spaces, are its binary form (R145). -/
theorem format_filter_ne_space (v pb : Nat) :
    (format v pb).filter (· ≠ ' ') = binaryText (2 * pb + 1) (mask v (2 * pb + 1)) := by
  rw [format]
  generalize hs : binaryText (2 * pb + 1) (mask v (2 * pb + 1)) = s
  have hsegments : s.take pb ++ ((s.drop pb).take pb ++ s.drop (2 * pb)) = s := by
    rw [two_mul, ← List.drop_drop, List.take_append_drop, List.take_append_drop]
  have hspace : ∀ ch ∈ s, decide (ch ≠ ' ') = true := fun ch hch => by
    obtain rfl | rfl := binaryText_binary (hs ▸ hch) <;> decide
  calc (s.take pb ++ ' ' :: ((s.drop pb).take pb ++ ' ' :: s.drop (2 * pb))).filter (· ≠ ' ')
      = (s.take pb ++ ((s.drop pb).take pb ++ s.drop (2 * pb))).filter (· ≠ ' ') := by simp
    _ = s := by rw [hsegments, List.filter_eq_self.mpr hspace]

theorem format_length (v pb : Nat) : (format v pb).length = 2 * pb + 3 := by
  simp [format]
  omega

end Sys2Proof.Machine
end

section
/-! `multiply` (44_host_interface.md R140, R142, R144): what it makes of a run whose responses are all OK, and the product that the
last of them carries under WINDOW. -/

namespace Sys2Proof.Machine
open Sys2Proof

variable {c : Params} {s t : State.At c} {m n mval rval : Nat} {mbits rbits : List Char}

/-- Where an operand is longer than `PB_MAX` the host answers itself (R144). -/
theorem multiply_of_too_long (hm : parse mbits = .ok (mval, m)) (hr : parse rbits = .ok (rval, n))
    (hlong : c.pbMax < m ∨ c.pbMax < n) : multiply mbits rbits s = (s, .error .registerWidthOverflow) := by
  simp only [multiply, hm, hr, if_pos hlong]

/-- Where both operands fit their fields `multiply` is a RUN and what the host makes of its responses (R140). -/
theorem multiply_of_issueRun {rs : List (Response c)} (hm : parse mbits = .ok (mval, m)) (hr : parse rbits = .ok (rval, n))
    (hfits : m ≤ c.pbMax ∧ n ≤ c.pbMax) (hrun : issueRun m n mval rval s = some (t, rs)) :
    multiply mbits rbits s = (t, traceOf rs) := by
  have hshort : ¬ (c.pbMax < m ∨ c.pbMax < n) := by omega
  simp only [multiply, hm, hr, if_neg hshort, hrun]

/-- Responses without an error are a trace of all their records and the last one's product (R140). -/
theorem traceOf_of_ok {rs : List (Response c)} {p : Value c} (hok : ∀ r ∈ rs, r.status = .ok)
    (hp : rs.getLast?.bind (·.product) = some p) : traceOf rs = .ok { recs := rs.flatMap (·.recs), product := p } := by
  have herr : rs.findSome? (fun r => errorOf r.status) = none :=
    List.findSome?_eq_none_iff.mpr fun r hr => by rw [hok r hr, errorOf]
  simp only [traceOf, herr, hp]

/-- A RUN that went on after its LOAD had status OK (R73). -/
theorem status_of_issueRun_cons {r : Response c} {rs : List (Response c)} (hrs : rs ≠ [])
    (h : issueRun m n mval rval s = some (t, r :: rs)) : r.status = .ok := by
  by_contra hstatus
  rw [issueRun] at h
  split at h
  · cases h
  · split at h
    · obtain ⟨_, _, heq⟩ := Option.map_eq_some_iff.mp h
      cases heq
      exact hstatus ‹_›
    · cases h
      exact hrs rfl

@[simp] theorem stepResponse_status (k : Nat) : (stepResponse c m n mval rval k).status = .ok := rfl

/-- The product port after the last STEP under WINDOW (R127, R131). -/
theorem productOf_runRegs_last_toNat (hvalid : ValidOperands m n mval rval) (hc : c.legal) (hpb : m + n ≤ c.pbMax)
    (hmode : c.negMode = .window) :
    (productOf (runRegs c m n mval rval (m + n)).P (runRegs c m n mval rval (m + n)).pb).toNat = mval * rval := by
  have hW := (Params.totalBits_le_wmax_iff hc _).mpr hpb
  obtain ⟨hpbk, -, -⟩ := runRegs_geometry_toNat (mval := mval) (rval := rval) hW (m + n)
  have hP := runRegs_P_last_of_window hvalid hW hmode
  obtain ⟨-, hmv, -, hrv⟩ := hvalid
  rw [productOf_toNat _ (hpbk.trans_le hpb), hP, hpbk, Nat.mul_div_cancel_left _ (by decide),
    Nat.mod_eq_of_lt (product_lt hmv hrv)]

/-- The last response of a run carries the product of the P that it leaves (R123, R127). -/
theorem stepResponses_getLast?_product (hvalid : ValidOperands m n mval rval) (hW : 2 * (m + n) + 1 ≤ c.wmax)
    (first : Response c) :
    (first :: (List.range (m + n)).map (stepResponse c m n mval rval)).getLast?.bind (·.product) =
      some (productOf (runRegs c m n mval rval (m + n)).P (runRegs c m n mval rval (m + n)).pb) := by
  obtain ⟨k, hk⟩ : ∃ k, k + 1 = m + n := ⟨m + n - 1, Nat.sub_add_cancel (hvalid.1.trans (Nat.le_add_right m n))⟩
  rw [← stepResponse_product_last hvalid hW hk, ← hk, List.range_succ, List.map_append, ← List.cons_append]
  exact congrArg (Option.bind · _) List.getLast?_concat

end Sys2Proof.Machine
end

section
/-! The statements of 44_host_interface.md. -/

namespace Sys2Proof
open Sys2Proof.Machine

/-- Settles O56: parsed operands are valid (R81), so the host's RUN is the whole run of `issueRun_of_validOperands`; every
response of it is OK and the last one carries the product. -/
theorem hostMultiplyIsCorrect : Obligations.HostMultiplyIsCorrect := by
  intro c s mbits rbits a b m n hc hmode hs hm hn hpb
  have hW := (Params.totalBits_le_wmax_iff hc _).mpr hpb
  obtain ⟨hm1, ha⟩ := width_pos_and_value_lt_of_parse hm
  have hvalid : ValidOperands m n a b := ⟨hm1, ha, width_pos_and_value_lt_of_parse hn⟩
  obtain ⟨t, first, hrun, hfirst, hdone⟩ := issueRun_of_validOperands hvalid hW hs
  have hmul := multiply_of_issueRun hm hn (by omega) hrun
  have hfirstOk : first.status = .ok := status_of_issueRun_cons (by simp; omega) hrun
  have htrace := traceOf_of_ok (by simp [hfirstOk]) (stepResponses_getLast?_product hvalid hW first)
  refine ⟨t, _, hmul.trans (congrArg _ htrace), productOf_runRegs_last_toNat hvalid hc hpb hmode, ?_, hdone⟩
  rw [List.flatMap_cons, List.length_append, hfirst, stepResponses_records_length hvalid hW le_rfl, ← Nat.add_assoc]

/-- Settles O54: `bitsOfText` finds the bits of a binary text and nothing else, and `bitsValue` is R141's sum. -/
theorem parseReadsBinaryText : Obligations.ParseReadsBinaryText := by
  refine fun s => ⟨fun hbad => ?_, fun hne hbin => ?_⟩
  · obtain rfl | hbad := hbad
    · rfl
    · rw [parse, bitsOfText_of_not_binary hbad]
  · rw [parse_of_binary hne hbin, bitsValue_eq_sum]

/-- Settles O55: without the spaces the formatted register is a binary text of `W` characters, whose value is masked already. -/
theorem formatThenParse : Obligations.FormatThenParse := by
  refine fun v pb => ⟨?_, format_length v pb⟩
  have hne : binaryText (2 * pb + 1) (mask v (2 * pb + 1)) ≠ [] := List.ne_nil_of_length_eq_add_one (binaryText_length _ _)
  rw [format_filter_ne_space, parse_of_binary hne fun _ => binaryText_binary, bitsValue_binaryText, binaryText_length,
    Nat.mod_eq_of_lt (mask_lt _ _)]

/-- Settles O57: the host's own check, which sends no command. -/
theorem hostWidthCheckSendsNothing : Obligations.HostWidthCheckSendsNothing :=
  fun _ _ _ _ _ _ _ _ hm hn hlong => ⟨multiply_of_too_long hm hn hlong, by omega⟩

end Sys2Proof
end

section
/-! What a command can do, by its status (60_exceptions.md R163, R165): rejected, a failed LOAD, or accepted; the status of a LOAD
(R166); and that no row enters FATAL (R164). -/

namespace Sys2Proof.Machine
open Sys2Proof

variable {c : Params} {s t : State.At c}

/-- The commands that are rejected (R165). -/
def Rejects (i : Instr) (s : State.At c) : Prop :=
  i = .reserved ∨ (i = .step ∧ s.phase ≠ .run) ∨ ((∃ m n mv rv, i = .load m n mv rv) ∧ s.phase = .fatal)

theorem not_rejects_query (s : State.At c) : ¬ Rejects .query s := by simp [Rejects]

theorem rejects_load_iff {m n mv rv : Nat} : Rejects (.load m n mv rv) s ↔ s.phase = .fatal := by simp [Rejects]

theorem rejects_step_iff : Rejects .step s ↔ s.phase ≠ .run := by simp [Rejects]

theorem rejects_reserved (s : State.At c) : Rejects .reserved s := .inl rfl

/-- A completed command was rejected, was a LOAD that failed with one of its two codes, or answers `OK`. -/
theorem command_cases {i : Instr} (hi : i.isCommand = true) (h : execAt i s = .next t) :
    (Rejects i s ∧ t = s.reject) ∨
      (¬ Rejects i s ∧ ∃ e, (e = .invalidOperand ∨ e = .widthOverflow) ∧ t = s.failLoad e) ∨
      (¬ Rejects i s ∧ ∃ r, t.resp = some r ∧ r.status = .ok) := by
  cases i with
  | query =>
    obtain ⟨r, hok, -, -, rfl⟩ := execQuery_eq_next h
    exact .inr (.inr ⟨not_rejects_query s, r, rfl, hok⟩)
  | load m n mv rv =>
    rw [rejects_load_iff]
    rcases execLoad_cases m n mv rv s with ⟨hf, hx⟩ | ⟨hf, e, hc, hx⟩ | ⟨hf, g, -, hx⟩ <;> cases hx.symm.trans h
    · exact .inl ⟨hf, rfl⟩
    · exact .inr (.inl ⟨hf, e, checkOperands_error hc, rfl⟩)
    · exact .inr (.inr ⟨hf, _, s.startRun_resp g mv m rv, rfl⟩)
  | step =>
    rw [rejects_step_iff]
    rcases execStep_cases s with ⟨hrun, hx⟩ | ⟨hrun, hx⟩
    · obtain ⟨r, hr, -⟩ := stepRun_answers (hx.symm.trans h)
      obtain ⟨-, -, hok, -⟩ := stepRun_answer (hx.symm.trans h) hr
      exact .inr (.inr ⟨not_not.mpr hrun, r, hr, hok⟩)
    · cases hx.symm.trans h
      exact .inl ⟨hrun, rfl⟩
  | reserved =>
    cases h
    exact .inl ⟨rejects_reserved s, rfl⟩
  | boothNop00 | boothAddA | boothAddS | boothNop11 | asr => exact absurd hi Bool.false_ne_true

/-- A row that leaves FATAL behind it began in FATAL: LOAD and STEP write other phases, and no other row writes PHASE (R164). -/
theorem phase_eq_fatal_of_execAt {i : Instr} (h : execAt i s = .next t) (ht : t.phase = .fatal) : s.phase = .fatal := by
  cases i with
  | load m n mv rv =>
    rcases execLoad_cases m n mv rv s with ⟨hf, -⟩ | ⟨-, e, -, hx⟩ | ⟨-, g, -, hx⟩
    · exact hf
    · cases hx.symm.trans h
      cases ht
    · cases hx.symm.trans h
      cases ht
  | step =>
    rcases execStep_cases s with ⟨-, hx⟩ | ⟨-, hx⟩
    · obtain ⟨_, _, _, _, _, _, -, -, -, -, -, ⟨-, _, -, rfl⟩ | ⟨-, rfl⟩⟩ := stepRun_eq_next (hx.symm.trans h)
      · cases ht
      · exact ht
    · cases hx.symm.trans h
      exact ht
  | _ =>
    obtain ⟨_, _, rfl⟩ := execAt_frame (by simp) (by simp) h
    exact ht

/-- No step enters FATAL, whatever the input (R164). -/
theorem phase_eq_fatal_of_stepAt (h : stepAt s = .next t) (ht : t.phase = .fatal) : s.phase = .fatal := by
  rcases portStep_cases execAt s with ⟨-, hx⟩ | ⟨w, rest, -, hx⟩ | ⟨rest, -, hx⟩
  · cases hx.symm.trans h
    exact ht
  · exact phase_eq_fatal_of_execAt (s := s.setInputs rest) (hx.symm.trans h) ht
  · cases hx.symm.trans h
    cases ht

/-- In FATAL every command writes the response port only, and QUERY alone is accepted (R164). -/
theorem command_of_fatal (hs : s.phase = .fatal) (w : CommandWord c) :
    ∃ r, execAt (decodeCmd c w) s = .next (s.setResp r) ∧ r.status = if w.toNat % 4 = 0 then .ok else .rejected := by
  rw [← opOf_toNat]
  rcases decodeCmd_cases w with ⟨ho, hd⟩ | ⟨ho, hd⟩ | ⟨ho, hd⟩ | ⟨ho, hd⟩ <;> rw [ho, hd]
  · exact ⟨_, execQuery_of_no_run (.inr hs), rfl⟩
  · exact ⟨_, execLoad_of_fatal hs, rfl⟩
  · exact ⟨_, execStep_of_fatal hs, rfl⟩
  · exact ⟨_, rfl, rfl⟩

/-- With no input waiting a step leaves the state equal (R174). -/
theorem step_of_no_input {s : State} (h : s.inputs = []) : step s = .next s := by
  rcases portStep_cases exec s with ⟨-, hx⟩ | ⟨w, rest, hin, -⟩ | ⟨rest, hin, -⟩
  · exact hx
  · cases h.symm.trans hin
  · cases h.symm.trans hin

/-- A state that a step of a machine leaves as it is stays for any number of steps. -/
theorem core_run_of_fixed {M : Host.Core} {s : M.State} (h : M.step s = .next s) : ∀ k, M.run k s = .next s := by
  intro k
  induction k with
  | zero => rfl
  | succ k ih =>
    rw [Host.Core.run, h]
    exact ih

end Sys2Proof.Machine
end

section
/-! The statements of 60_exceptions.md. -/

namespace Sys2Proof
open Sys2Proof.Machine

/-- Settles O3: without an input a step goes back to the same state, so any number of them does; the other inputs are a command
word and the reset input. -/
theorem holdsStateBetweenInputs : Obligations.HoldsStateBetweenInputs := by
  refine ⟨fun s k h => core_run_of_fixed (M := core) (step_of_no_input h) k, fun s t h hne => ?_⟩
  rcases portStep_cases exec s with ⟨-, hx⟩ | ⟨w, rest, hin, -⟩ | ⟨rest, hin, -⟩
  · cases hx.symm.trans h
    exact absurd rfl hne
  · exact .inl ⟨w, rest, hin⟩
  · exact .inr ⟨rest, hin⟩

/-- Settles O16: the checks in R166's order; the last one, of `totalBits` against WMAX, is that of `m + n` against PB_MAX. -/
theorem loadStatusPriority : Obligations.LoadStatusPriority := by
  intro c s m n mv rv hc
  by_cases hs : s.phase = .fatal
  · exact ⟨_, _, execLoad_of_fatal hs, rfl, by simp [hs]⟩
  by_cases hm : m = 0 ∨ 2 ^ m ≤ mv
  · exact ⟨_, _, execLoad_of_not_validOperands hs (by omega), rfl, by simp [hs, hm]⟩
  by_cases hn : n = 0 ∨ 2 ^ n ≤ rv
  · exact ⟨_, _, execLoad_of_not_validOperands hs (by omega), rfl, by simp [hs, hn]⟩
  have hvalid : ValidOperands m n mv rv := by omega
  have hwidth := Params.totalBits_le_wmax_iff hc (m + n)
  by_cases hpb : c.pbMax < m + n
  · exact ⟨_, _, execLoad_of_totalBits_gt hs hvalid (by omega), rfl, by simp [hs, hm, hn, hpb]⟩
  · exact ⟨_, _, execLoad_of_totalBits_le hs hvalid (hwidth.mpr (by omega)), s.startRun_resp _ mv m rv,
      by simp [hs, hm, hn, hpb]⟩

/-- Settles O35: no row and no reset leaves FATAL behind it, `enterFatal` is a literal state, and in FATAL `command_of_fatal`
gives every command's outcome. -/
theorem fatalIsNeverEntered : Obligations.FatalIsNeverEntered := by
  refine ⟨fun s t h => ?_, fun _ => rfl, fun s w hs => ?_⟩
  · rw [step_eq_stepAt] at h
    exact phase_eq_fatal_of_stepAt h
  · obtain ⟨r, hx, hstatus⟩ := command_of_fatal hs w
    exact ⟨_, r, (exec_eq_execAt _ s).trans hx, rfl, rfl, hstatus⟩

/-- Settles O39: of the outcomes of a command only a rejection answers REJECTED, and it writes the response port alone. -/
theorem rejectionsChangeNothing : Obligations.RejectionsChangeNothing := by
  intro i s t hi h
  rw [exec_eq_execAt] at h
  rcases command_cases hi h with ⟨hrej, rfl⟩ | ⟨hrej, e, he, rfl⟩ | ⟨hrej, r, hr, hok⟩
  · exact ⟨_, rfl, iff_of_true rfl hrej, fun _ => rfl⟩
  · have hne : e ≠ .rejected := by rcases he with rfl | rfl <;> decide
    exact ⟨_, rfl, iff_of_false hne hrej, fun h => absurd h hne⟩
  · have hne : r.status ≠ .rejected := by simp [hok]
    exact ⟨r, hr, iff_of_false hne hrej, fun h => absurd h hne⟩

/-- Settles O40: a command that does not answer `OK` was rejected or is a failed LOAD, and both answer a bare status. -/
theorem errorEffects : Obligations.ErrorEffects := by
  intro i s t r hi h hr hne
  rw [exec_eq_execAt] at h
  rcases command_cases hi h with ⟨-, rfl⟩ | ⟨-, e, he, rfl⟩ | ⟨-, r', hr', hok⟩
  · cases hr
    exact ⟨rfl, rfl, by simp, fun _ => rfl, by simp⟩
  · cases hr
    obtain ⟨hinternal, hrej⟩ : e ≠ .internalInvariant ∧ e ≠ .rejected := by rcases he with rfl | rfl <;> decide
    exact ⟨rfl, rfl, hinternal, fun h => absurd h hrej, fun _ => ⟨rfl, rfl, rfl, rfl, rfl, rfl, rfl, rfl, rfl⟩⟩
  · cases hr'.symm.trans hr
    exact absurd hok hne

end Sys2Proof
end

section
/-! The reset input and the hazards of 70_reset_and_hazards.md (R180, R184): what the reset input leaves, that FATAL is left by it
alone, which rows keep the addends and the geometry, and what a LOAD leaves of a run. -/

namespace Sys2Proof.Machine
open Sys2Proof

variable {c : Params} {s t : State.At c}

/-- The reset input acts in every phase (R180). -/
theorem portStep_of_reset (ex : Executor c) {rest : List (Input c)} (h : s.inputs = .reset :: rest) :
    portStep ex s = .next ((State.resetAt c).setInputs rest) := by
  rw [portStep, h]
  rfl

/-- A step that leaves FATAL took the reset input: without an input the state stays, and no command leaves FATAL (R180). -/
theorem inputs_of_stepAt_leaves_fatal (hs : s.phase = .fatal) (h : stepAt s = .next t) (ht : t.phase ≠ .fatal) :
    ∃ rest, s.inputs = .reset :: rest := by
  rcases portStep_cases execAt s with ⟨-, hx⟩ | ⟨w, rest, -, hx⟩ | ⟨rest, hin, -⟩
  · cases hx.symm.trans h
    exact absurd hs ht
  · exact absurd (execAt_phase_of_fatal (s := s.setInputs rest) hs (hx.symm.trans h)) ht
  · exact ⟨rest, hin⟩

/-- Only LOAD writes the addends and the geometry (R184). -/
theorem execAt_addends_geometry {i : Instr} (hload : ∀ m n mv rv, i ≠ .load m n mv rv) (h : execAt i s = .next t) :
    t.A = s.A ∧ t.S = s.S ∧ t.pb = s.pb ∧ t.W = s.W ∧ t.hb = s.hb := by
  by_cases hstep : i = .step
  · subst hstep
    obtain ⟨_, _, _, _, rfl⟩ := execStep_frame h
    exact ⟨rfl, rfl, rfl, rfl, rfl⟩
  · obtain ⟨_, _, rfl⟩ := execAt_frame hload hstep h
    exact ⟨rfl, rfl, rfl, rfl, rfl⟩

/-- A failed LOAD leaves no run (R92). -/
theorem failLoad_void (s : State.At c) (e : Status) : (s.failLoad e).void := ⟨rfl, rfl, rfl, rfl, rfl, rfl, rfl⟩

/-- Outside FATAL a LOAD starts a new run, with all its iterations to do, or leaves none (R184). -/
theorem execLoad_run_or_void (hs : s.phase ≠ .fatal) (m n mval rval : Nat) :
    ∃ t, execLoad m n mval rval s = .next t ∧
      (t.phase = .run ∧ t.rem = t.pb ∧ t.pb ≠ none ∨ t.phase = .idle ∧ t.void) := by
  rcases execLoad_cases m n mval rval s with ⟨hf, -⟩ | ⟨-, e, -, hx⟩ | ⟨-, g, -, hx⟩
  · exact absurd hf hs
  · exact ⟨_, hx, .inr ⟨rfl, failLoad_void s e⟩⟩
  · exact ⟨_, hx, .inl ⟨rfl, rfl, by simp⟩⟩

end Sys2Proof.Machine
end

section
/-! The statements of 70_reset_and_hazards.md. -/

namespace Sys2Proof
open Sys2Proof.Machine

/-- Settles O2: the reset input leaves the reset state whatever the phase, no other step leaves FATAL, and the reset state meets
the invariant, under which every command answers. -/
theorem resetInputFromEveryPhase : Obligations.ResetInputFromEveryPhase := by
  refine ⟨fun s rest hin => portStep_of_reset exec hin, fun s t hs h ht => ?_, fun w => ?_⟩
  · exact inputs_of_stepAt_leaves_fatal hs ((step_eq_stepAt s).symm.trans h) ht
  · obtain ⟨t, r, hx, hr, -⟩ := everyCommandAnswers State.reset w invariantAtReset
    exact ⟨t, r, hx, hr⟩

/-- Settles O32: the frames of the rows other than LOAD, and the two outcomes of a LOAD outside FATAL. -/
theorem onlyLoadWritesAddends : Obligations.OnlyLoadWritesAddends :=
  ⟨fun i s _ hload h => execAt_addends_geometry hload ((exec_eq_execAt i s).symm.trans h),
    fun _ m n mv rv hs => execLoad_run_or_void hs m n mv rv⟩

end Sys2Proof
end
